-- ==== Sys2Proof/Word.lean ====
section
/-! DEFINITION. The machine word of the block and its byte (00_scope.md R9, R12). -/

namespace Sys2Proof

/-- XLEN = 32: machine words, virtual and physical addresses and CSRs are 32 bits wide (00_scope.md R9). -/
abbrev Word := BitVec 32

/-- The unit of the memories (20_memory.md R44). -/
abbrev Byte := BitVec 8

end Sys2Proof
end

