-- ==== Sys2Proof/Config.lean ====
section
/-! DEFINITION. What is fixed when an instance of the block is built (00_scope.md R10, 10_state.md R40), the data
of a reference engine (42_cosim.md R109), and the free values: opaque constants that nothing can evaluate. -/

namespace Sys2Proof

/-- A map from numbers to `w`-bit words, held as a list sorted strictly by key in which no entry holds 0:
a key that is not listed reads as 0. Guest memory, reference memory and the reference's CSRs have this form. -/
abbrev Sparse (w : Nat) := List (Nat × BitVec w)

/-- A byte memory in the host's form of a cell (address, byte). -/
abbrev Memory := List Host.Cell

/-- NR_GPR is 16 or 32 (00_scope.md R10, 10_state.md R20). -/
inductive NrGpr where
  | n16
  | n32
deriving DecidableEq, Repr, Inhabited

/-- The number of general registers an instance has. -/
def NrGpr.count : NrGpr → Nat
  | .n16 => 16
  | .n32 => 32

/-- A register image: gpr[0..NR_GPR-1] and pc (10_state.md R34). -/
structure RegImage where
  gpr : List Word
  pc  : Word
deriving DecidableEq, Repr, Inhabited

/-- The reference engine's state: registers, CSRs by number, its own memory, and "anything hidden"
(42_cosim.md R109, 20_memory.md R53). -/
structure RefEngine where
  gpr    : List Word
  pc     : Word
  csrs   : Sparse 32
  mem    : Memory
  hidden : Nat
deriving DecidableEq, Repr, Inhabited

/-- What is assumed of the reference-engine oracle REF (42_cosim.md R109): nothing, or the named assumption REF-RV. -/
inductive RefModel where
  | blackBox
  | refRV
deriving DecidableEq, Repr, Inhabited

/-- An address window of a device that the collaborator maps behind paddr_read and paddr_write (20_memory.md R46). What
of it lies past the 32-bit physical addresses does not exist (assumption 17). -/
structure Window where
  base : Nat
  size : Nat
deriving DecidableEq, Repr, Inhabited

/-- The parameters of an instance (00_scope.md R10). -/
structure Config where
  nrGpr       : NrGpr
  resetVector : Word
  pmemBase    : Word
  pmemSize    : Nat
  irqTimer    : Word
  regNames    : List String
  devices     : List Window
  ref         : RefModel
deriving DecidableEq, Repr, Inhabited

namespace Config

/-- The RISC-V ABI names, the default REG_NAME (42_cosim.md R117). -/
def abiNames : List String :=
  ["$0", "ra", "sp", "gp", "tp", "t0", "t1", "t2", "s0", "s1", "a0", "a1", "a2", "a3", "a4", "a5"] ++
  ["a6", "a7", "s2", "s3", "s4", "s5", "s6", "s7", "s8", "s9", "s10", "s11", "t3", "t4", "t5", "t6"]

/-- The defaults of 00_scope.md R10. NR_GPR is OPEN there: DESIGN CHOICE 32 (assumption 1); the device list and
the assumption about REF are the model's: none, and a black box (assumptions 15 and 11). -/
def standard : Config where
  nrGpr := .n32
  resetVector := 0x80000000#32
  pmemBase := 0x80000000#32
  pmemSize := 0x08000000
  irqTimer := 0x80000007#32
  regNames := abiNames
  devices := []
  ref := .blackBox

/-- The legal parameter values of 00_scope.md R10: RESET_VECTOR is a 4-aligned word inside physical memory, and
physical memory lies in the 32-bit address space (20_memory.md R44). -/
abbrev Legal (c : Config) : Prop :=
  c.resetVector.toNat % 4 = 0 ∧ c.pmemBase.toNat ≤ c.resetVector.toNat ∧
    c.resetVector.toNat + 4 ≤ c.pmemBase.toNat + c.pmemSize ∧ c.pmemBase.toNat + c.pmemSize ≤ 2 ^ 32

/-- FREE VALUE: the word a device answers a read with (93_implementation_defined.md U19; assumption 15). -/
opaque freeWord : Nat → Word

/-- FREE VALUE: the reference engine after a RefExec of which nothing is assumed, and after a foreign call that was
cut short (93_implementation_defined.md U1, U2; assumptions 10 and 14). -/
opaque freeEngine : Nat → RefEngine

/-- FREE VALUE: what a copy into the mirror that was cut short leaves there (42_cosim.md R107; assumption 14). -/
opaque freeImage : Nat → RegImage

/-- FREE VALUE: a byte that a copy into the block's buffer which was cut short leaves there, by draw and place in the
buffer (42_cosim.md R107; assumption 14). -/
opaque freeByte : Nat → Nat → Byte

/-- FREE VALUE: the reference's legalised view of a value written to a CSR
(93_implementation_defined.md U3; assumption 12). -/
opaque legalised : Nat → BitVec 12 → Word → Word

end Config

end Sys2Proof
end

