-- ==== Sys2Proof/Syntax.lean ====
section
/-! DEFINITION. The instructions: the 18 commands of the block (30_encoding.md R65) and the one guest instruction of
the bootstrap program (30_encoding.md R73). Operands A and B are on the buses (R63), not in the words. -/

namespace Sys2Proof

/-- The `kind` field of CHECK and TRANSLATE (30_encoding.md R62, R66). -/
inductive AccessKind where
  | ifetch
  | read
  | write
deriving DecidableEq, Repr

/-- The access lengths the block admits (00_scope.md R11). -/
inductive AccessLen where
  | b1
  | b2
  | b4
deriving DecidableEq, Repr

/-- The length in bytes. -/
def AccessLen.bytes : AccessLen → Nat
  | .b1 => 1
  | .b2 => 2
  | .b4 => 4

/-- Who reads a word as an instruction: the block's request channel (30_encoding.md R61), or the reference engine,
which fetches it from its own memory (42_cosim.md R109). -/
inductive Port where
  | command
  | reference
deriving DecidableEq, Repr

/-- One constructor per row of spec/opcode_table.json. -/
inductive Instr where
  | check (kind : AccessKind) (len : AccessLen)
  | translate (kind : AccessKind) (len : AccessLen)
  | ifetch (len : AccessLen)
  | read (len : AccessLen)
  | write (len : AccessLen)
  | raise
  | query
  | csrGet (csr : BitVec 12)
  | csrSet (csr : BitVec 12)
  | attach
  | detach
  | checkRegs
  | gprRead (reg : BitVec 5)
  | gprWrite (reg : BitVec 5)
  | pcRead
  | pcWrite
  | irqEdge
  | step
  | csrw (csr : BitVec 12) (rs1 : BitVec 5)
deriving DecidableEq, Repr

/-- The port an instruction's word is read at: `csrw` is not a command (opcode_table.json, its row's note). -/
def Instr.port : Instr → Port
  | .csrw _ _ => .reference
  | .check _ _ | .translate _ _ | .ifetch _ | .read _ | .write _ | .raise | .query | .csrGet _ | .csrSet _
  | .attach | .detach | .checkRegs | .gprRead _ | .gprWrite _ | .pcRead | .pcWrite | .irqEdge | .step => .command

end Sys2Proof
end

