-- ==== Sys2Proof/Machine/State.lean ====
section
/-! DEFINITION. The state of the machine as plain data, why a step can stop, and the state after reset. -/

namespace Sys2Proof.Machine

/-- The sub-reasons of an invalid walk (60_exceptions.md R121). -/
inductive InvalidReason where
  /-- level-1 PTE with V = 0 (R81) -/
  | l1V
  /-- level-2 PTE with V = 0 (R86) -/
  | l2V
  /-- level-2 PTE with R = 0 or W = 0 (R87) -/
  | l2RW
deriving DecidableEq, Repr

/-- The Fatal reasons of 60_exceptions.md R121. The step answers a NEXT state that records one of them in the halt
record (R122); it never answers the host's fault outcome (assumption 6: safe). -/
inductive Fault where
  /-- TranslationFault.CrossPage: TRANSLATE, and IFETCH, READ, WRITE under translation (R79). Safe: the spec's own. -/
  | crossPage
  /-- TranslationFault.Invalid: the walk (R81, R86, R87). Safe: the spec's own. -/
  | invalid (why : InvalidReason)
  /-- TranslationFault.Misaligned: the walk, at a level-1 leaf with PPN0 ≠ 0 (R83). Safe: the spec's own. -/
  | misaligned
  /-- CsrFault.UnknownId: CSR_GET, CSR_SET (R100). Safe: the spec's own. -/
  | unknownId
  /-- ForeignCallSize: a foreign call with inconsistent sizes (R108); no state that meets the invariant reaches it.
  Safe: the spec's own. -/
  | foreignCallSize
  /-- PhysOutOfRange: PteRead, MemRead, MemWrite, ATTACH's check (R46, R48, R113). Safe: the spec's own. -/
  | physOutOfRange
deriving DecidableEq, Repr

/-- Why the step gives an input no meaning (60_exceptions.md R123). Every one is safe: the run stops there. -/
inductive Refusal where
  /-- exec's arm of an instruction that has no meaning yet; safe. -/
  | notModelled (mnemonic : String)
  /-- IllegalCommand: the decoder, and GPR_READ, GPR_WRITE at an index ≥ NR_GPR (30_encoding.md R68); safe. -/
  | illegalCommand
  /-- X0Write: GPR_WRITE of a non-zero value to x0 (41_trap_csr.md R104), and a snapshot with gpr[0] ≠ 0
  (20_memory.md R60); safe. -/
  | x0Write
  /-- BadCount: STEP with n = 0 (42_cosim.md R118); safe. -/
  | badCount
  /-- Any command while halted = 1 (60_exceptions.md R122); safe. -/
  | halted
  /-- The model's own: a snapshot load whose byte sequence has not the size of the layout (20_memory.md R60,
  assumption 18); safe. -/
  | badSnapshot
deriving DecidableEq, Repr

/-- cosim_mode (10_state.md R36). -/
inductive CosimMode where
  | detached
  | attached
deriving DecidableEq, Repr

/-- The six CSRs (10_state.md R25). -/
structure Csrs where
  mstatus  : Word
  mtvec    : Word
  mepc     : Word
  mcause   : Word
  satp     : Word
  mscratch : Word
deriving DecidableEq, Repr

/-- One register that differs between the live file and the mirror (42_cosim.md R117). -/
structure Mismatch where
  name  : String
  index : Nat
  live  : Word
  ref   : Word
  atPc  : Word
deriving DecidableEq, Repr

/-- The `status` of a response (30_encoding.md R64). -/
inductive Status where
  | ok
  | fatal (why : Fault)
  | refused (why : Refusal)
deriving DecidableEq, Repr

/-- The response to one command (30_encoding.md R64). -/
structure Response where
  status     : Status
  valid      : Bool
  value      : Word
  mismatches : List Mismatch
deriving DecidableEq, Repr

/-- The direction of a foreign call (42_cosim.md R107). -/
inductive Dir where
  | toReference
  | fromReference
deriving DecidableEq, Repr

/-- One access or foreign call a command makes: what R55 and R110 order. -/
inductive BusEvent where
  | pteRead (pa : Word)
  | memRead (pa : Word) (n : Nat)
  | memWrite (pa : Word) (bytes : List Byte)
  | pmemBytes (pa : Word) (n : Nat)
  | refMemcpy (addr : Word) (len : Nat) (bytes : List Byte) (dir : Dir)
  | refRegcpy (image : RegImage) (dir : Dir)
  | refExec (n : Word)
deriving DecidableEq, Repr

/-- Whether a foreign call transfers or executes fully (42_cosim.md R107, R108). -/
inductive CallFate where
  | complete
  | cutShort
deriving DecidableEq, Repr

/-- The registers a reset leaves unspecified, "any value, a free draw per register" (10_state.md R41, R43). -/
structure ResetDraws where
  gpr    : List Word
  mirror : RegImage
  boot   : RegImage
deriving DecidableEq, Repr

/-- What comes to the machine from outside, one at a time. -/
inductive Event where
  /-- A command word and its operands A and B, from the caller or, for IRQ_EDGE, the interrupt source
  (30_encoding.md R61, 41_trap_csr.md R99). -/
  | command (word a b : Word)
  /-- Reset, with the values of the registers it leaves unspecified (70_reset_and_hazards.md R137). -/
  | reset (draws : ResetDraws)
  /-- The external snapshot load (20_memory.md R60; assumption 18). -/
  | snapshotLoad (image : List Byte)
deriving DecidableEq, Repr

/-- Everything the spec gives the machine. `queue`, `callFates`, `draws` and `trace` are the model's own fields
(INVENTORY.md). -/
structure State where
  /-- instance parameters, fixed while the machine runs (00_scope.md R10, 10_state.md R40) -/
  cfg        : Config
  /-- general registers, NR_GPR of them (10_state.md R20) -/
  gpr        : List Word
  /-- program counter (10_state.md R23) -/
  pc         : Word
  /-- pending-interrupt latch (10_state.md R24) -/
  pending    : Bool
  /-- the six CSRs (10_state.md R25) -/
  csr        : Csrs
  /-- mirror register file (10_state.md R33) -/
  mirror     : RegImage
  /-- scratch image (10_state.md R35) -/
  boot       : RegImage
  /-- co-simulation mode (10_state.md R36) -/
  cosim      : CosimMode
  /-- halt record (10_state.md R37) -/
  halted     : Bool
  /-- halt record: the reason, none before a Fatal (10_state.md R37, R43) -/
  haltReason : Option Fault
  /-- guest physical memory (10_state.md R40, 20_memory.md R46) -/
  mem        : Memory
  /-- the reference engine (42_cosim.md R109) -/
  ref        : RefEngine
  /-- operand bus A of the command being run (30_encoding.md R63) -/
  busA       : Word
  /-- operand bus B of the command being run (30_encoding.md R63) -/
  busB       : Word
  /-- inputs not yet taken, oldest first (assumption 8) -/
  queue      : List Event
  /-- fates of the foreign calls to come; past the end every call is complete (assumption 14) -/
  callFates  : List CallFate
  /-- how many free values have been drawn (assumption 10) -/
  draws      : Nat
  /-- the answer of the last command (30_encoding.md R64) -/
  response   : Option Response
  /-- the accesses and foreign calls of the last event, in order (assumption 20) -/
  trace      : List BusEvent
deriving DecidableEq, Repr

/-- A register file of `n` registers from a list of drawn values: cut to length, missing ones 0. How many registers it
has can be evaluated whatever the list is, a free value among them. -/
def fitRegs (n : Nat) (l : List Word) : List Word :=
  (List.range n).map (fun i => l.getD i 0)

/-- A register image of `n` registers and pc. -/
def fitImage (n : Nat) (g : RegImage) : RegImage :=
  { g with gpr := fitRegs n g.gpr }

/-- All six CSRs after reset (10_state.md R42). -/
def Csrs.reset : Csrs where
  mstatus := 0
  mtvec := 0
  mepc := 0
  mcause := 0
  satp := 0
  mscratch := 0

/-- An instance right after reset, for any parameters, any draws of the registers reset leaves unspecified, any
loaded guest memory and any reference engine (10_state.md R41, R42, R43; 70_reset_and_hazards.md R137). -/
def State.powerOn (c : Config) (d : ResetDraws) (m : Memory) (r : RefEngine) : State where
  cfg := c
  gpr := (fitRegs c.nrGpr.count d.gpr).set 0 0
  pc := c.resetVector
  pending := false
  csr := Csrs.reset
  mirror := fitImage c.nrGpr.count d.mirror
  boot := fitImage c.nrGpr.count d.boot
  cosim := .detached
  halted := false
  haltReason := none
  mem := m
  ref := r
  busA := 0
  busB := 0
  queue := []
  callFates := []
  draws := 0
  response := none
  trace := []

/-- DESIGN CHOICE (assumptions 2 and 3): every register that reset leaves unspecified holds 0 in State.reset. -/
def ResetDraws.zero : ResetDraws where
  gpr := []
  mirror := ⟨[], 0⟩
  boot := ⟨[], 0⟩

/-- DESIGN CHOICE (assumption 5): the reference engine State.reset starts with. -/
def zeroEngine (c : Config) : RefEngine where
  gpr := fitRegs c.nrGpr.count []
  pc := 0
  csrs := []
  mem := []
  hidden := 0

/-- The machine right after reset: the default parameters, the values R41 to R43 state, and for what they leave
unspecified the values of assumptions 2, 3, 4 and 5. -/
def State.reset : State :=
  State.powerOn Config.standard ResetDraws.zero [] (zeroEngine Config.standard)

end Sys2Proof.Machine
end

