-- ==== Sys2Proof/Machine/Flags.lean ====
section
/-! DEFINITION. The block has no flags or condition codes (10_state.md R38). The two interpreted bits of mstatus stand
here (10_state.md R27). -/

namespace Sys2Proof.Machine

/-- MIE, mstatus bit 3 (10_state.md R27): the trap unit is Enabled (41_trap_csr.md R96). -/
def mieOf (mstatus : Word) : Bool := mstatus.getLsbD 3

/-- MPIE, mstatus bit 7 (10_state.md R27). -/
def mpieOf (mstatus : Word) : Bool := mstatus.getLsbD 7

/-- mstatus with MIE set to `b`, every other bit kept. -/
def withMie (mstatus : Word) (b : Bool) : Word :=
  (mstatus &&& 0xFFFFFFF7#32) ||| (if b then 0x00000008#32 else 0#32)

/-- mstatus with MPIE set to `b`, every other bit kept. -/
def withMpie (mstatus : Word) (b : Bool) : Word :=
  (mstatus &&& 0xFFFFFF7F#32) ||| (if b then 0x00000080#32 else 0#32)

/-- mstatus after trap entry: MPIE <- MIE, then MIE <- 0; MPP and all else kept (41_trap_csr.md R97). -/
def trapStatus (mstatus : Word) : Word :=
  withMie (withMpie mstatus (mieOf mstatus)) false

end Sys2Proof.Machine
end

