-- ==== Sys2Proof/Machine/Operands.lean ====
section
/-! DEFINITION. The operand forms: fields of virtual addresses, PTEs and satp (30_encoding.md R69 to R72), byte order
(20_memory.md R49), CSR numbers (30_encoding.md R67). Operands A and B are State's busA and busB, as given (R63). -/

namespace Sys2Proof.Machine

/-- Page offset, bits 11:0 (30_encoding.md R69). -/
def pageOffset (vaddr : Word) : BitVec 12 := vaddr.extractLsb' 0 12

/-- VPN0, bits 21:12 (30_encoding.md R69). -/
def vpn0 (vaddr : Word) : BitVec 10 := vaddr.extractLsb' 12 10

/-- VPN1, bits 31:22 (30_encoding.md R69). -/
def vpn1 (vaddr : Word) : BitVec 10 := vaddr.extractLsb' 22 10

/-- satp.MODE, bit 31 (10_state.md R31). -/
def satpMode (satp : Word) : Bool := satp.getLsbD 31

/-- satp.PPN, bits 21:0 (10_state.md R31). -/
def satpPpn (satp : Word) : BitVec 22 := satp.extractLsb' 0 22

/-- PTE bit V (30_encoding.md R70). -/
def pteV (pte : Word) : Bool := pte.getLsbD 0

/-- PTE bit R (30_encoding.md R70). -/
def pteR (pte : Word) : Bool := pte.getLsbD 1

/-- PTE bit W (30_encoding.md R70). -/
def pteW (pte : Word) : Bool := pte.getLsbD 2

/-- PTE bit X (30_encoding.md R70). -/
def pteX (pte : Word) : Bool := pte.getLsbD 3

/-- PTE field PPN0, bits 19:10 (30_encoding.md R70). -/
def ptePpn0 (pte : Word) : BitVec 10 := pte.extractLsb' 10 10

/-- PTE field PPN1, bits 31:20 (30_encoding.md R70). -/
def ptePpn1 (pte : Word) : BitVec 12 := pte.extractLsb' 20 12

/-- The coarse PPN, bits 31:10 (30_encoding.md R71). -/
def ptePpn (pte : Word) : BitVec 22 := pte.extractLsb' 10 22

/-- A table base plus four times an index, mod 2^32 (40_translation.md R80, R85). -/
def pteAddr (ppn : BitVec 22) (vpn : BitVec 10) : Word :=
  (ppn.setWidth 32 <<< 12) + (vpn.setWidth 32 <<< 2)

/-- {PPN1, VPN0, offset} truncated to 32 bits (40_translation.md R84). -/
def superpageAddr (pte vaddr : Word) : Word :=
  ((ptePpn1 pte).setWidth 32 <<< 22) ||| ((vpn0 vaddr).setWidth 32 <<< 12) ||| (pageOffset vaddr).setWidth 32

/-- {PPN, offset} truncated to 32 bits (40_translation.md R88). -/
def pageAddr (pte vaddr : Word) : Word :=
  ((ptePpn pte).setWidth 32 <<< 12) ||| (pageOffset vaddr).setWidth 32

/-- The low `n` bytes of a word, the least significant first (20_memory.md R49). -/
def leBytes (n : Nat) (v : Word) : List Byte :=
  match n with
  | 0 => []
  | k + 1 => v.setWidth 8 :: leBytes k (v >>> 8)

/-- Bytes assembled little-endian and zero-extended to 32 bits (20_memory.md R47, R49). -/
def leWord (bs : List Byte) : Word :=
  match bs with
  | [] => 0
  | b :: rest => (leWord rest <<< 8) ||| b.setWidth 32

/-- Words laid out little-endian, one after the other (20_memory.md R49, R60). -/
def wordsBytes (ws : List Word) : List Byte :=
  ws.flatMap (leBytes 4)

/-- The CSRs that exist (10_state.md R25). -/
inductive CsrName where
  | mstatus
  | mtvec
  | mepc
  | mcause
  | satp
  | mscratch
deriving DecidableEq, Repr

/-- The number of a CSR (30_encoding.md R67). -/
def csrNumber : CsrName → BitVec 12
  | .mstatus => 0x300#12
  | .mtvec => 0x305#12
  | .mepc => 0x341#12
  | .mcause => 0x342#12
  | .satp => 0x180#12
  | .mscratch => 0x340#12

/-- The multiplexer's select: the CSR a number names, none for any other number (41_trap_csr.md R100). -/
def csrSelect (n : BitVec 12) : Option CsrName :=
  if n = 0x300#12 then some .mstatus
  else if n = 0x305#12 then some .mtvec
  else if n = 0x341#12 then some .mepc
  else if n = 0x342#12 then some .mcause
  else if n = 0x180#12 then some .satp
  else if n = 0x340#12 then some .mscratch
  else none

/-- The value of a CSR, all 32 bits (10_state.md R26). -/
def readCsr (c : Csrs) : CsrName → Word
  | .mstatus => c.mstatus
  | .mtvec => c.mtvec
  | .mepc => c.mepc
  | .mcause => c.mcause
  | .satp => c.satp
  | .mscratch => c.mscratch

/-- Store all 32 bits of a CSR (10_state.md R26). -/
def writeCsr (c : Csrs) (n : CsrName) (v : Word) : Csrs :=
  match n with
  | .mstatus => { c with mstatus := v }
  | .mtvec => { c with mtvec := v }
  | .mepc => { c with mepc := v }
  | .mcause => { c with mcause := v }
  | .satp => { c with satp := v }
  | .mscratch => { c with mscratch := v }

/-- The words of a register image: gpr[0..NR_GPR-1], then pc (10_state.md R34). -/
def imageWords (g : RegImage) : List Word := g.gpr ++ [g.pc]

end Sys2Proof.Machine
end

