-- ==== Sys2Proof/Machine/Ops.lean ====
section
/-! DEFINITION. The named operations over memory and registers that the meanings share: memories, physical accesses,
the walk, answering and halting, trap entry, the register ports, free draws. -/

namespace Sys2Proof

namespace Machine

/-- What a sparse map holds at a key: 0 where nothing is listed (assumptions 4 and 5). -/
def sparseGet {w : Nat} (m : Sparse w) (k : Nat) : BitVec w :=
  match m with
  | [] => 0#w
  | (a, b) :: rest => if k = a then b else sparseGet rest k

/-- Write one key, keeping the canonical form: writing 0 removes the entry. -/
def sparseSet {w : Nat} (m : Sparse w) (k : Nat) (v : BitVec w) : Sparse w :=
  match m with
  | [] => if v = 0#w then [] else [(k, v)]
  | (a, b) :: rest =>
    if k < a then (if v = 0#w then (a, b) :: rest else (k, v) :: (a, b) :: rest)
    else if k = a then (if v = 0#w then rest else (k, v) :: rest)
    else (a, b) :: sparseSet rest k v

/-- The canonical form: keys strictly rising, and no entry equal to what an unlisted key reads as. -/
abbrev SparseWf {w : Nat} (m : Sparse w) : Prop :=
  m.Pairwise (fun x y => x.1 < y.1) ∧ ∀ c ∈ m, c.2 ≠ 0#w

/-- The canonical map that a list of key and value pairs describes, keys taken modulo `bound`. -/
def sparseOf {w : Nat} (bound : Nat) (l : Sparse w) : Sparse w :=
  match l with
  | [] => []
  | (k, v) :: rest => sparseSet (sparseOf bound rest) (k % bound) v

/-- `n` bytes from an address upward. -/
def readBytes (m : Memory) (addr n : Nat) : List Byte :=
  match n with
  | 0 => []
  | k + 1 => sparseGet m addr :: readBytes m (addr + 1) k

/-- Store bytes from an address upward. -/
def writeBytes (m : Memory) (addr : Nat) (bs : List Byte) : Memory :=
  match bs with
  | [] => m
  | b :: rest => writeBytes (sparseSet m addr b) (addr + 1) rest

/-- `n` bytes of reference memory from a 32-bit address upward, addresses mod 2^32 (20_memory.md R53, assumption 24). -/
def readBytesWrap (m : Memory) (addr : Word) (n : Nat) : List Byte :=
  match n with
  | 0 => []
  | k + 1 => sparseGet m addr.toNat :: readBytesWrap m (addr + 1#32) k

/-- Store bytes in reference memory from a 32-bit address upward, addresses mod 2^32 (20_memory.md R53, assumption 24). -/
def writeBytesWrap (m : Memory) (addr : Word) (bs : List Byte) : Memory :=
  match bs with
  | [] => m
  | b :: rest => writeBytesWrap (sparseSet m addr.toNat b) (addr + 1#32) rest

/-- One past the last guest physical address (20_memory.md R46); physical addresses are 32 bits (R44). -/
def pmemEnd (c : Config) : Nat := min (c.pmemBase.toNat + c.pmemSize) (2 ^ 32)

/-- Are bytes pa .. pa+n-1 all inside guest physical memory (20_memory.md R46, R48)? -/
def inPmem (c : Config) (pa : Word) (n : Nat) : Bool :=
  decide (c.pmemBase.toNat ≤ pa.toNat ∧ pa.toNat + n ≤ pmemEnd c)

/-- One past the last physical address of a device window. DEDUCED (assumption 17): the spec does not bound windows, and
physical addresses are 32 bits (20_memory.md R44), so what of a window lies past them does not exist. -/
def windowEnd (d : Window) : Nat := min (d.base + d.size) (2 ^ 32)

/-- Are bytes pa .. pa+n-1 all inside one device window of the collaborator (20_memory.md R46; assumption 17)? -/
def inDevice (c : Config) (pa : Word) (n : Nat) : Bool :=
  c.devices.any (fun d => decide (d.base ≤ pa.toNat ∧ pa.toNat + n ≤ windowEnd d))

/-- One byte of guest physical memory. -/
def State.byteAt (s : State) (addr : Nat) : Byte := sparseGet s.mem addr

/-- Append to the trace of the last event (assumption 20). -/
def State.logged (s : State) (es : List BusEvent) : State := { s with trace := s.trace ++ es }

/-- `ok(value)`: the response of a command that completed (00_scope.md R15, 30_encoding.md R64). -/
def State.answer (s : State) (v : Word) : State :=
  { s with response := some { status := .ok, valid := false, value := v, mismatches := [] } }

/-- `raise Fatal(r)`: the halt record and the FATAL response, nothing else (60_exceptions.md R122). -/
def State.haltWith (s : State) (r : Fault) : State :=
  { s with
    halted := true
    haltReason := some r
    response := some { status := .fatal r, valid := false, value := 0, mismatches := [] } }

/-- PteRead: four bytes of guest memory, never a device; none where one of them does not exist (20_memory.md R48). -/
def pteRead (s : State) (pa : Word) : Option Word :=
  if inPmem s.cfg pa 4 then some (leWord (readBytes s.mem pa.toNat 4)) else none

/-- MemRead: paddr_read of `n` bytes, zero-extended (20_memory.md R47); a device answers a free value, cut to `n`
bytes (assumption 15). -/
def memRead (s : State) (pa : Word) (n : Nat) : Except Fault (Word × State) :=
  if inPmem s.cfg pa n then
    .ok (leWord (readBytes s.mem pa.toNat n), s.logged [.memRead pa n])
  else if inDevice s.cfg pa n then
    .ok (leWord (leBytes n (Config.freeWord s.draws)), { s.logged [.memRead pa n] with draws := s.draws + 1 })
  else .error .physOutOfRange

/-- MemWrite: paddr_write of the low `n` bytes of `v` (20_memory.md R47); a device takes the bytes and guest memory is
unchanged (assumption 15). -/
def memWrite (s : State) (pa : Word) (n : Nat) (v : Word) : Except Fault State :=
  if inPmem s.cfg pa n then
    .ok { s.logged [.memWrite pa (leBytes n v)] with mem := writeBytes s.mem pa.toNat (leBytes n v) }
  else if inDevice s.cfg pa n then
    .ok (s.logged [.memWrite pa (leBytes n v)])
  else .error .physOutOfRange

/-- What a walk comes to, and the PTE addresses it read, in order (20_memory.md R55). -/
structure Walk where
  result : Except Fault Word
  reads  : List Word

/-- The second level of a walk (40_translation.md R85 to R88). -/
def walkLevel2 (s : State) (a1 pte1 vaddr : Word) : Walk :=
  let a2 := pteAddr (ptePpn pte1) (vpn0 vaddr)
  match pteRead s a2 with
  | none => ⟨.error .physOutOfRange, [a1]⟩
  | some pte2 =>
    if pteV pte2 = false then ⟨.error (.invalid .l2V), [a1, a2]⟩
    else if pteR pte2 = false ∨ pteW pte2 = false then ⟨.error (.invalid .l2RW), [a1, a2]⟩
    else ⟨.ok (pageAddr pte2 vaddr), [a1, a2]⟩

/-- The two-level walk (40_translation.md R79 to R84, R91). It reads neither the access kind nor satp.MODE (R89). -/
def walk (s : State) (vaddr : Word) (len : AccessLen) : Walk :=
  if 4096 ≤ (pageOffset vaddr).toNat + len.bytes - 1 then ⟨.error .crossPage, []⟩
  else
    let a1 := pteAddr (satpPpn s.csr.satp) (vpn1 vaddr)
    match pteRead s a1 with
    | none => ⟨.error .physOutOfRange, []⟩
    | some pte1 =>
      if pteV pte1 = false then ⟨.error (.invalid .l1V), [a1]⟩
      else if pteR pte1 = true ∨ pteX pte1 = true then
        if ptePpn0 pte1 = 0 then ⟨.ok (superpageAddr pte1 vaddr), [a1]⟩
        else ⟨.error .misaligned, [a1]⟩
      else walkLevel2 s a1 pte1 vaddr

/-- The CHECK decision (40_translation.md R78): translation is on. -/
def translating (s : State) : Bool := satpMode s.csr.satp

/-- The physical address of an access: the virtual address where translation is off, else the walk's with the offset
OR-ed in (40_translation.md R92, R93, R94). -/
def physAddr (s : State) (vaddr : Word) (len : AccessLen) : Walk :=
  if translating s then
    match walk s vaddr len with
    | ⟨.ok pa, reads⟩ => ⟨.ok (pa ||| (pageOffset vaddr).setWidth 32), reads⟩
    | ⟨.error f, reads⟩ => ⟨.error f, reads⟩
  else ⟨.ok vaddr, []⟩

/-- Trap entry, the one shared operation of it (41_trap_csr.md R97, 60_exceptions.md R128): mepc, mcause and mstatus
are written and nothing else. The block has no return from a trap (R129): software makes one from CSR_GET, CSR_SET and
PC_WRITE. -/
def State.enterTrap (s : State) (cause faultingPc : Word) : State :=
  { s with csr := { s.csr with mepc := faultingPc, mcause := cause, mstatus := trapStatus s.csr.mstatus } }

/-- gpr[i], as stored (10_state.md R21). -/
def readGpr (l : List Word) (i : Nat) : Word := l.getD i 0

/-- gpr[i] <- v (10_state.md R21). -/
def writeGpr (l : List Word) (i : Nat) (v : Word) : List Word := l.set i v

/-- The live image (10_state.md R34). -/
def State.liveImage (s : State) : RegImage := ⟨s.gpr, s.pc⟩

/-- A drawn reference engine in canonical form: NR_GPR registers, memory over 32-bit addresses, CSRs over 12-bit
numbers (assumption 16). -/
def fitEngine (c : Config) (e : RefEngine) : RefEngine where
  gpr := fitRegs c.nrGpr.count e.gpr
  pc := e.pc
  csrs := sparseOf (2 ^ 12) e.csrs
  mem := sparseOf (2 ^ 32) e.mem
  hidden := e.hidden

/-- The reference's whole state becomes a free draw (42_cosim.md R108, R109). -/
def State.drawEngine (s : State) : State :=
  { s with ref := fitEngine s.cfg (Config.freeEngine s.draws), draws := s.draws + 1 }

/-- The mirror becomes a free draw: a copy into it that was cut short (assumption 14). -/
def State.drawMirror (s : State) : State :=
  { s with mirror := fitImage s.cfg.nrGpr.count (Config.freeImage s.draws), draws := s.draws + 1 }

/-- A buffer of `n` bytes becomes a free draw: a copy into it that was cut short (assumption 14). -/
def State.drawBytes (s : State) (n : Nat) : List Byte × State :=
  ((List.range n).map (Config.freeByte s.draws), { s with draws := s.draws + 1 })

/-- Reset (70_reset_and_hazards.md R137): guest memory and the reference engine are left alone, and so are the
environment's inputs. -/
def State.resetNow (s : State) (d : ResetDraws) : State :=
  { State.powerOn s.cfg d s.mem s.ref with queue := s.queue, callFates := s.callFates, draws := s.draws }

/-- The response a caller sees for an outcome (30_encoding.md R64): a refusal is a response too, although the machine
has no next state then (60_exceptions.md R123). -/
def responseOf (o : Host.Outcome State Fault Refusal) : Option Response :=
  match o with
  | .next s => s.response
  | .fault r => some { status := .fatal r, valid := false, value := 0, mismatches := [] }
  | .refused r => some { status := .refused r, valid := false, value := 0, mismatches := [] }

end Machine

/-- The canonical form of a memory: addresses strictly rising, no entry equal to what an unlisted address reads as. -/
abbrev Memory.wf (m : Memory) : Prop := Machine.SparseWf m

end Sys2Proof
end

