-- ==== Sys2Proof/Machine/CsrMux.lean ====
section
/-! DEFINITION. CSR_GET and CSR_SET (41_trap_csr.md R100 to R102). -/

namespace Sys2Proof.Machine

/-- CSR_GET (41_trap_csr.md R101). -/
def execCsrGet (csr : BitVec 12) (s : State) : Host.Outcome State Fault Refusal :=
  match csrSelect csr with
  | some n => .next (s.answer (readCsr s.csr n))
  | none => .next (s.haltWith .unknownId)

/-- CSR_SET (41_trap_csr.md R102). -/
def execCsrSet (csr : BitVec 12) (s : State) : Host.Outcome State Fault Refusal :=
  match csrSelect csr with
  | some n => .next ({ s with csr := writeCsr s.csr n s.busA }.answer 0)
  | none => .next (s.haltWith .unknownId)

end Sys2Proof.Machine
end

