-- ==== Sys2Proof/Decode.lean ====
section
/-! DEFINITION. From words to instructions, total and rejecting by name (30_encoding.md R62, R65, R66, R68, R73), and
back: the encoder from the same tables. -/

namespace Sys2Proof

/-- Why a word is no instruction of the port it arrived at. -/
inductive DecodeError where
  /-- `rsv` is not 0 (R68). -/
  | reservedBits
  /-- `op` is 0x00 or 0x13 to 0x1F (R68). -/
  | reservedOp
  /-- A field the command does not use is not 0 (R68). -/
  | unusedField
  /-- `len` names 8 bytes, which XLEN = 32 refuses (R66, 00_scope.md R11). -/
  | lengthEight
  /-- `len` is not one-hot (R66). -/
  | badLength
  /-- `kind` is 0b11 (R66). -/
  | badKind
  /-- On the reference port: not the bootstrap instruction's form (R73). -/
  | notBootstrap
deriving DecidableEq, Repr

/-- The fields of a command word (30_encoding.md R62). -/
structure CommandFields where
  op   : BitVec 5
  kind : BitVec 2
  len  : BitVec 4
  csr  : BitVec 12
  reg  : BitVec 5
  rsv  : BitVec 4
deriving DecidableEq, Repr

/-- Pull the fields out of a command word (30_encoding.md R62). -/
def commandFields (w : Word) : CommandFields where
  op := w.extractLsb' 0 5
  kind := w.extractLsb' 5 2
  len := w.extractLsb' 7 4
  csr := w.extractLsb' 11 12
  reg := w.extractLsb' 23 5
  rsv := w.extractLsb' 28 4

/-- Put the fields of a command word together (30_encoding.md R62). -/
def commandWord (f : CommandFields) : Word :=
  (f.rsv.setWidth 32 <<< 28) ||| (f.reg.setWidth 32 <<< 23) ||| (f.csr.setWidth 32 <<< 11) |||
    (f.len.setWidth 32 <<< 7) ||| (f.kind.setWidth 32 <<< 5) ||| f.op.setWidth 32

/-- The one-hot length codes (30_encoding.md R62, R66). -/
def decodeLen (n : BitVec 4) : Except DecodeError AccessLen :=
  match n.toNat with
  | 1 => .ok .b1
  | 2 => .ok .b2
  | 4 => .ok .b4
  | 8 => .error .lengthEight
  | _ => .error .badLength

/-- The access-kind codes (30_encoding.md R62, R66). -/
def decodeKind (k : BitVec 2) : Except DecodeError AccessKind :=
  match k.toNat with
  | 0 => .ok .ifetch
  | 1 => .ok .read
  | 2 => .ok .write
  | _ => .error .badKind

/-- The code of a length (30_encoding.md R62). -/
def lenCode : AccessLen → BitVec 4
  | .b1 => 0b0001#4
  | .b2 => 0b0010#4
  | .b4 => 0b0100#4

/-- The code of an access kind (30_encoding.md R62). -/
def kindCode : AccessKind → BitVec 2
  | .ifetch => 0b00#2
  | .read => 0b01#2
  | .write => 0b10#2

/-- Commands that use `kind` and `len` (R65). -/
def usesKindLen (f : CommandFields) (mk : AccessKind → AccessLen → Instr) : Except DecodeError Instr :=
  if f.csr = 0 ∧ f.reg = 0 then
    match decodeKind f.kind with
    | .error e => .error e
    | .ok k =>
      match decodeLen f.len with
      | .error e => .error e
      | .ok n => .ok (mk k n)
  else .error .unusedField

/-- Commands that use `len` alone (R65). -/
def usesLen (f : CommandFields) (mk : AccessLen → Instr) : Except DecodeError Instr :=
  if f.kind = 0 ∧ f.csr = 0 ∧ f.reg = 0 then
    match decodeLen f.len with
    | .error e => .error e
    | .ok n => .ok (mk n)
  else .error .unusedField

/-- Commands that use `csr` alone (R65); any 12-bit number is accepted here (R66). -/
def usesCsr (f : CommandFields) (mk : BitVec 12 → Instr) : Except DecodeError Instr :=
  if f.kind = 0 ∧ f.len = 0 ∧ f.reg = 0 then .ok (mk f.csr) else .error .unusedField

/-- Commands that use `reg` alone (R65); whether it is below NR_GPR is the instance's matter (WellFormed). -/
def usesReg (f : CommandFields) (mk : BitVec 5 → Instr) : Except DecodeError Instr :=
  if f.kind = 0 ∧ f.len = 0 ∧ f.csr = 0 then .ok (mk f.reg) else .error .unusedField

/-- Commands that use no field (R65). -/
def usesNone (f : CommandFields) (i : Instr) : Except DecodeError Instr :=
  if f.kind = 0 ∧ f.len = 0 ∧ f.csr = 0 ∧ f.reg = 0 then .ok i else .error .unusedField

/-- The command codes (30_encoding.md R65). -/
def decodeFields (f : CommandFields) : Except DecodeError Instr :=
  if f.rsv = 0 then
    match f.op.toNat with
    | 0x01 => usesKindLen f .check
    | 0x02 => usesKindLen f .translate
    | 0x03 => usesLen f .ifetch
    | 0x04 => usesLen f .read
    | 0x05 => usesLen f .write
    | 0x06 => usesNone f .raise
    | 0x07 => usesNone f .query
    | 0x08 => usesCsr f .csrGet
    | 0x09 => usesCsr f .csrSet
    | 0x0A => usesNone f .attach
    | 0x0B => usesNone f .detach
    | 0x0C => usesNone f .checkRegs
    | 0x0D => usesReg f .gprRead
    | 0x0E => usesReg f .gprWrite
    | 0x0F => usesNone f .pcRead
    | 0x10 => usesNone f .pcWrite
    | 0x11 => usesNone f .irqEdge
    | 0x12 => usesNone f .step
    | _ => .error .reservedOp
  else .error .reservedBits

/-- The fields of the bootstrap instruction (30_encoding.md R73). -/
structure CsrrwFields where
  opcode : BitVec 7
  rd     : BitVec 5
  funct3 : BitVec 3
  rs1    : BitVec 5
  csr    : BitVec 12
deriving DecidableEq, Repr

/-- Pull the fields out of a guest word (30_encoding.md R73). -/
def csrrwFields (w : Word) : CsrrwFields where
  opcode := w.extractLsb' 0 7
  rd := w.extractLsb' 7 5
  funct3 := w.extractLsb' 12 3
  rs1 := w.extractLsb' 15 5
  csr := w.extractLsb' 20 12

/-- Put the fields of a guest word together (30_encoding.md R73). -/
def csrrwWord (f : CsrrwFields) : Word :=
  (f.csr.setWidth 32 <<< 20) ||| (f.rs1.setWidth 32 <<< 15) ||| (f.funct3.setWidth 32 <<< 12) |||
    (f.rd.setWidth 32 <<< 7) ||| f.opcode.setWidth 32

/-- CSRRW with rd = x0, the only guest instruction this block emits (30_encoding.md R73, R76). -/
def decodeCsrrw (f : CsrrwFields) : Except DecodeError Instr :=
  if f.opcode = 0b1110011#7 ∧ f.rd = 0#5 ∧ f.funct3 = 0b001#3 then .ok (.csrw f.csr f.rs1)
  else .error .notBootstrap

/-- The instruction a word is at a port. -/
def decode (p : Port) (w : Word) : Except DecodeError Instr :=
  match p with
  | .command => decodeFields (commandFields w)
  | .reference => decodeCsrrw (csrrwFields w)

/-- A command word's fields with everything unused at 0 (30_encoding.md R65, R68). -/
def bareFields (op : BitVec 5) : CommandFields where
  op := op
  kind := 0
  len := 0
  csr := 0
  reg := 0
  rsv := 0

/-- The word of an instruction (30_encoding.md R65, R73). -/
def encode : Instr → Word
  | .check k n => commandWord { bareFields 0x01 with kind := kindCode k, len := lenCode n }
  | .translate k n => commandWord { bareFields 0x02 with kind := kindCode k, len := lenCode n }
  | .ifetch n => commandWord { bareFields 0x03 with len := lenCode n }
  | .read n => commandWord { bareFields 0x04 with len := lenCode n }
  | .write n => commandWord { bareFields 0x05 with len := lenCode n }
  | .raise => commandWord (bareFields 0x06)
  | .query => commandWord (bareFields 0x07)
  | .csrGet c => commandWord { bareFields 0x08 with csr := c }
  | .csrSet c => commandWord { bareFields 0x09 with csr := c }
  | .attach => commandWord (bareFields 0x0A)
  | .detach => commandWord (bareFields 0x0B)
  | .checkRegs => commandWord (bareFields 0x0C)
  | .gprRead r => commandWord { bareFields 0x0D with reg := r }
  | .gprWrite r => commandWord { bareFields 0x0E with reg := r }
  | .pcRead => commandWord (bareFields 0x0F)
  | .pcWrite => commandWord (bareFields 0x10)
  | .irqEdge => commandWord (bareFields 0x11)
  | .step => commandWord (bareFields 0x12)
  | .csrw c rs1 => csrrwWord ⟨0b1110011#7, 0#5, 0b001#3, rs1, c⟩

/-- The port whose instruction a word is, if either reads it: no word is both (a bootstrap word's bits 4:0 are the
reserved op 0x13). -/
def portOfWord (w : Word) : Port :=
  match decode .reference w with
  | .ok _ => .reference
  | .error _ => .command

/-- The instruction the decoder reads from a word given as a number, bit 0 the least significant. Every word of both
ports is exactly 32 bits (30_encoding.md R76). -/
def decodeTableWord (nbits w : Nat) : Option Instr :=
  if nbits ≤ 32 ∧ w < 2 ^ 32 then
    match decode (portOfWord (BitVec.ofNat 32 w)) (BitVec.ofNat 32 w) with
    | .ok i => some i
    | .error _ => none
  else none

end Sys2Proof
end

