-- ==== Sys2Proof/Machine/Reference.lean ====
section
/-! DEFINITION. The reference engine as far as the spec gives it: the three foreign-call primitives (42_cosim.md R107,
R108), RefExec (R109), and the bootstrap instruction `csrw` under REF-RV (30_encoding.md R73). -/

namespace Sys2Proof.Machine

/-- x[i] of the reference under REF-RV: x0 reads zero, as the RISC-V specification has it (PRESUMED, assumption 11). -/
def refReg (e : RefEngine) (i : BitVec 5) : Word :=
  if i = 0 then 0 else readGpr e.gpr i.toNat

/-- The effect of `csrw csr, rs1`. Under REF-RV, CSR[csr] becomes the reference's legalised view of x[rs1], and pc
moves on by 4 (42_cosim.md R109). DESIGN CHOICE (assumption 30): everything else of the reference stays, its other CSRs
(a counter, a CSR that shows part of another) and its hidden state among it; R109 speaks of CSR[csr] and pc only. A
reference of which nothing is assumed obeys no law: a free draw (R109); and so does
a register the reference does not have (assumption 11). -/
def csrwEffect (csr : BitVec 12) (rs1 : BitVec 5) (s : State) : State :=
  if s.cfg.ref = .refRV ∧ rs1.toNat < s.cfg.nrGpr.count then
    { s with
      ref := { s.ref with
        csrs := sparseSet s.ref.csrs csr.toNat (Config.legalised s.draws csr (refReg s.ref rs1))
        pc := s.ref.pc + 4 }
      draws := s.draws + 1 }
  else s.drawEngine

/-- csrw (30_encoding.md R73): one instruction of the reference engine; no command, so no response. The machine runs it
inside RefExec only (00_scope.md R18, assumption 13): `refRvStep` makes the same effect there. -/
def execCsrw (csr : BitVec 12) (rs1 : BitVec 5) (s : State) : Host.Outcome State Fault Refusal :=
  .next (csrwEffect csr rs1 s)

/-- The word the reference fetches: four bytes of its own memory at its own pc, little-endian (20_memory.md R49). -/
def refFetch (e : RefEngine) : Word := leWord (readBytesWrap e.mem e.pc 4)

/-- One instruction of the reference under REF-RV (42_cosim.md R109). The spec states the bootstrap instruction's
effect only; any other instruction is the black box's: a free draw (00_scope.md R8, assumption 11). -/
def refRvStep (s : State) : State :=
  match decode .reference (refFetch s.ref) with
  | .ok (.csrw csr rs1) => csrwEffect csr rs1 s
  | _ => s.drawEngine

/-- `n` instructions of the reference under REF-RV. -/
def refRvRun (n : Nat) (s : State) : State :=
  match n with
  | 0 => s
  | k + 1 => refRvRun k (refRvStep s)

/-- A foreign call: it is recorded, and has its effect, or, cut short, what is then left undefined (42_cosim.md R107).
DESIGN CHOICE (assumption 14): which calls are cut short is an input. -/
def foreignCall {α : Type} (e : BusEvent) (full short : State → α) (s : State) : α :=
  let t := { s.logged [e] with callFates := s.callFates.tail }
  match s.callFates.headD .complete with
  | .complete => full t
  | .cutShort => short t

/-- RefMemcpy to the reference: an exact copy (42_cosim.md R107, R109); sizes must agree (R108). -/
def refMemcpyTo (addr : Word) (bytes : List Byte) (len : Nat) (s : State) : Except (Fault × State) State :=
  if bytes.length = len then
    .ok (foreignCall (.refMemcpy addr len bytes .toReference)
      (fun t => { t with ref := { t.ref with mem := writeBytesWrap t.ref.mem addr bytes } })
      State.drawEngine s)
  else .error (.foreignCallSize, s)

/-- RefMemcpy from the reference into a buffer of `size` bytes (42_cosim.md R107): what the buffer then holds, and the
state. An exact copy (R109), or, cut short, "undefined" (R107): DESIGN CHOICE (assumption 14), the buffer a free value
as well as the reference, of which alone R108 speaks. No command of the block issues one (20_memory.md R53 names the
primitive). -/
def refMemcpyFrom (addr : Word) (len size : Nat) (s : State) : Except (Fault × State) (List Byte × State) :=
  if size = len then
    .ok (foreignCall (.refMemcpy addr len (readBytesWrap s.ref.mem addr len) .fromReference)
      (fun t => (readBytesWrap s.ref.mem addr len, t))
      (fun t => t.drawEngine.drawBytes len) s)
  else .error (.foreignCallSize, s)

/-- The size in bytes of a register image as transferred (10_state.md R34). -/
def imageSize (g : RegImage) : Nat := (wordsBytes (imageWords g)).length

/-- RefRegcpy of an image to the reference: an exact copy (42_cosim.md R107, R109); the image must have
4·NR_GPR+4 bytes (R108). -/
def refRegcpyTo (g : RegImage) (s : State) : Except (Fault × State) State :=
  if imageSize g = 4 * s.cfg.nrGpr.count + 4 then
    .ok (foreignCall (.refRegcpy g .toReference)
      (fun t => { t with ref := { t.ref with gpr := g.gpr, pc := g.pc } })
      State.drawEngine s)
  else .error (.foreignCallSize, s)

/-- RefRegcpy from the reference into the mirror (42_cosim.md R107, 10_state.md R33). Cut short, it leaves the mirror a
free value as well as the reference: DESIGN CHOICE (assumption 14). -/
def refRegcpyFrom (s : State) : Except (Fault × State) State :=
  let g : RegImage := ⟨s.ref.gpr, s.ref.pc⟩
  if imageSize g = 4 * s.cfg.nrGpr.count + 4 then
    .ok (foreignCall (.refRegcpy g .fromReference)
      (fun t => { t with mirror := g })
      (fun t => t.drawEngine.drawMirror) s)
  else .error (.foreignCallSize, s)

/-- What RefExec(n) does when it executes fully (42_cosim.md R107, R109): a free draw of the reference's state, or,
where the instance is assumed REF-RV, its next `n` instructions. -/
def refExecEffect (n : Word) (s : State) : State :=
  match s.cfg.ref with
  | .blackBox => s.drawEngine
  | .refRV => refRvRun n.toNat s

/-- RefExec(n) (42_cosim.md R107). -/
def refExec (n : Word) (s : State) : State :=
  foreignCall (.refExec n) (refExecEffect n) State.drawEngine s

end Sys2Proof.Machine
end

