-- ==== Sys2Proof/Machine/Mirror.lean ====
section
/-! DEFINITION. ATTACH, DETACH, CHECK_REGS, STEP (42_cosim.md R110 to R119). -/

namespace Sys2Proof.Machine

/-- The six bootstrap instructions, satp last (42_cosim.md R111, 30_encoding.md R75). -/
def bootstrapProgram : List Instr :=
  [.csrw 0x300#12 1#5, .csrw 0x305#12 2#5, .csrw 0x341#12 3#5, .csrw 0x342#12 4#5, .csrw 0x340#12 5#5, .csrw 0x180#12 6#5]

/-- Their 24 bytes (30_encoding.md R75). -/
def bootstrapBytes : List Byte := wordsBytes (bootstrapProgram.map encode)

/-- The scratch image: the live registers, x1 to x6 replaced by the six CSRs, pc at RESET_VECTOR (42_cosim.md R112). -/
def scratchImage (s : State) : RegImage where
  gpr := writeGpr (writeGpr (writeGpr (writeGpr (writeGpr (writeGpr s.gpr
    1 s.csr.mstatus) 2 s.csr.mtvec) 3 s.csr.mepc) 4 s.csr.mcause) 5 s.csr.mscratch) 6 s.csr.satp
  pc := s.cfg.resetVector

/-- PmemBytes: `n` bytes of guest memory through the guest-to-host mapping, no device (42_cosim.md R113). -/
def pmemBytes (s : State) (pa : Word) (n : Nat) : List Byte := readBytes s.mem pa.toNat n

/-- The six foreign calls of ATTACH, in order (42_cosim.md R113); (1) to (3) are run_bootstrap. -/
def attachCalls (s : State) : Except (Fault × State) State := do
  let t ← refMemcpyTo s.cfg.resetVector bootstrapBytes 24 s
  let t ← refRegcpyTo (scratchImage s) t
  let t := refExec 6 t
  let t ← refRegcpyTo s.liveImage t
  let t ← refMemcpyTo s.cfg.resetVector (pmemBytes s s.cfg.resetVector 24) 24
    (t.logged [.pmemBytes s.cfg.resetVector 24])
  refRegcpyFrom t

/-- A Fatal from a foreign call: nothing but the calls already made and the halt record stays (00_scope.md R16). No
state that meets the invariant reaches it (42_cosim.md R108, assumption 26). -/
def haltAfterCalls (s t : State) (f : Fault) : State :=
  { s with ref := t.ref, callFates := t.callFates, draws := t.draws, trace := t.trace }.haltWith f

/-- ATTACH (42_cosim.md R113). -/
def execAttach (s : State) : Host.Outcome State Fault Refusal :=
  if inPmem s.cfg s.cfg.resetVector 24 then
    match attachCalls s with
    | .ok t => .next ({ t with boot := scratchImage s, cosim := .attached }.answer 0)
    | .error (f, t) => .next (haltAfterCalls s t f)
  else .next (s.haltWith .physOutOfRange)

/-- DETACH (42_cosim.md R115). -/
def execDetach (s : State) : Host.Outcome State Fault Refusal :=
  .next ({ s with cosim := .detached }.answer 0)

/-- REG_NAME(i) (42_cosim.md R117, assumption 25). -/
def regName (c : Config) (i : Nat) : String := c.regNames.getD i ""

/-- The record of register `i`, if live and mirror differ there (42_cosim.md R116, R117). -/
def gprMismatch (s : State) (currentPc : Word) (i : Nat) : Option Mismatch :=
  if readGpr s.gpr i = readGpr s.mirror.gpr i then none
  else some
    { name := regName s.cfg i, index := i, live := readGpr s.gpr i, ref := readGpr s.mirror.gpr i, atPc := currentPc }

/-- The record of pc, if live and mirror differ there (42_cosim.md R116, R117). -/
def pcMismatch (s : State) (currentPc : Word) : List Mismatch :=
  if s.pc = s.mirror.pc then []
  else [{ name := "pc", index := s.cfg.nrGpr.count, live := s.pc, ref := s.mirror.pc, atPc := currentPc }]

/-- Every mismatching register, in index order, pc last (42_cosim.md R116). -/
def mismatchesOf (s : State) (currentPc : Word) : List Mismatch :=
  (List.range s.cfg.nrGpr.count).filterMap (gprMismatch s currentPc) ++ pcMismatch s currentPc

/-- The comparator's answer: 1 and no record, or 0 and the records (42_cosim.md R116). -/
def State.compared (s : State) (currentPc : Word) : State :=
  { s with
    response := some ⟨.ok, false, if mismatchesOf s currentPc = [] then 1 else 0, mismatchesOf s currentPc⟩ }

/-- CHECK_REGS (42_cosim.md R116), in either mode. -/
def execCheckRegs (s : State) : Host.Outcome State Fault Refusal :=
  .next (s.compared s.busB)

/-- STEP (42_cosim.md R118). -/
def execStep (s : State) : Host.Outcome State Fault Refusal :=
  if s.busA = 0 then .refused .badCount
  else
    match s.cosim with
    | .detached => .next (s.answer 1)
    | .attached =>
      match refRegcpyFrom (refExec s.busA s) with
      | .ok t => .next (t.compared s.busB)
      | .error (f, t) => .next (haltAfterCalls s t f)

end Sys2Proof.Machine
end

