-- ==== Sys2Proof/Machine/Ports.lean ====
section
/-! DEFINITION. GPR_READ, GPR_WRITE, PC_READ, PC_WRITE (41_trap_csr.md R103 to R106). -/

namespace Sys2Proof.Machine

/-- GPR_READ (41_trap_csr.md R103); an index ≥ NR_GPR is refused (30_encoding.md R68). -/
def execGprRead (reg : BitVec 5) (s : State) : Host.Outcome State Fault Refusal :=
  if reg.toNat < s.cfg.nrGpr.count then .next (s.answer (readGpr s.gpr reg.toNat))
  else .refused .illegalCommand

/-- GPR_WRITE (41_trap_csr.md R104); IllegalCommand is checked before X0Write (60_exceptions.md R126). -/
def execGprWrite (reg : BitVec 5) (s : State) : Host.Outcome State Fault Refusal :=
  if reg.toNat < s.cfg.nrGpr.count then
    if reg = 0 ∧ s.busA ≠ 0 then .refused .x0Write
    else .next ({ s with gpr := writeGpr s.gpr reg.toNat s.busA }.answer 0)
  else .refused .illegalCommand

/-- PC_READ (41_trap_csr.md R105). -/
def execPcRead (s : State) : Host.Outcome State Fault Refusal :=
  .next (s.answer s.pc)

/-- PC_WRITE (41_trap_csr.md R106): no alignment check. -/
def execPcWrite (s : State) : Host.Outcome State Fault Refusal :=
  .next ({ s with pc := s.busA }.answer 0)

end Sys2Proof.Machine
end

