-- ==== Sys2Proof/Machine/Trap.lean ====
section
/-! DEFINITION. RAISE, QUERY and IRQ_EDGE (41_trap_csr.md R96 to R99). -/

namespace Sys2Proof.Machine

/-- RAISE (41_trap_csr.md R97): trap entry; the answer is mtvec as it stood before. pc is not written. -/
def execRaise (s : State) : Host.Outcome State Fault Refusal :=
  .next ((s.enterTrap s.busA s.busB).answer s.csr.mtvec)

/-- QUERY (41_trap_csr.md R98): deliver and clear the latch when Enabled, mtvec ≠ 0 and an edge is pending. -/
def execQuery (s : State) : Host.Outcome State Fault Refusal :=
  if mieOf s.csr.mstatus = true ∧ s.csr.mtvec ≠ 0 ∧ s.pending = true then
    .next { s with
      pending := false
      response := some { status := .ok, valid := true, value := s.cfg.irqTimer, mismatches := [] } }
  else .next (s.answer 0)

/-- IRQ_EDGE (41_trap_csr.md R99): the latch is set, whether or not it was. -/
def execIrqEdge (s : State) : Host.Outcome State Fault Refusal :=
  .next ({ s with pending := true }.answer 0)

end Sys2Proof.Machine
end

