-- ==== Sys2Proof/Machine/Walker.lean ====
section
/-! DEFINITION. CHECK, TRANSLATE, IFETCH, READ, WRITE (40_translation.md). -/

namespace Sys2Proof.Machine

/-- CHECK (40_translation.md R78): 0 = Direct, 1 = Translate; neither `vaddr`, `kind` nor `len` matters. -/
def execCheck (_kind : AccessKind) (_len : AccessLen) (s : State) : Host.Outcome State Fault Refusal :=
  .next (s.answer (if translating s then 1 else 0))

/-- TRANSLATE (40_translation.md R91): the walk, whatever satp.MODE is (R89). -/
def execTranslate (_kind : AccessKind) (len : AccessLen) (s : State) : Host.Outcome State Fault Refusal :=
  let w := walk s s.busA len
  let t := s.logged (w.reads.map .pteRead)
  match w.result with
  | .ok pa => .next (t.answer pa)
  | .error f => .next (t.haltWith f)

/-- A load from a virtual address, shared by IFETCH and READ (40_translation.md R92, R93). -/
def loadVirtual (len : AccessLen) (s : State) : Host.Outcome State Fault Refusal :=
  let w := physAddr s s.busA len
  let t := s.logged (w.reads.map .pteRead)
  match w.result with
  | .error f => .next (t.haltWith f)
  | .ok pa =>
    match memRead t pa len.bytes with
    | .error f => .next (t.haltWith f)
    | .ok (v, u) => .next (u.answer v)

/-- IFETCH (40_translation.md R92). -/
def execIfetch (len : AccessLen) (s : State) : Host.Outcome State Fault Refusal :=
  loadVirtual len s

/-- READ (40_translation.md R93). -/
def execRead (len : AccessLen) (s : State) : Host.Outcome State Fault Refusal :=
  loadVirtual len s

/-- WRITE (40_translation.md R94). -/
def execWrite (len : AccessLen) (s : State) : Host.Outcome State Fault Refusal :=
  let w := physAddr s s.busA len
  let t := s.logged (w.reads.map .pteRead)
  match w.result with
  | .error f => .next (t.haltWith f)
  | .ok pa =>
    match memWrite t pa len.bytes s.busB with
    | .error f => .next (t.haltWith f)
    | .ok u => .next (u.answer 0)

end Sys2Proof.Machine
end

