-- ==== Sys2Proof/Machine/Dispatch.lean ====
section
/-! DEFINITION. One arm per instruction. -/

namespace Sys2Proof.Machine

def exec (i : Instr) (s : State) : Host.Outcome State Fault Refusal :=
  match i with
  | .check kind len => Sys2Proof.Machine.execCheck kind len s
  | .translate kind len => Sys2Proof.Machine.execTranslate kind len s
  | .ifetch len => Sys2Proof.Machine.execIfetch len s
  | .read len => Sys2Proof.Machine.execRead len s
  | .write len => Sys2Proof.Machine.execWrite len s
  | .raise => Sys2Proof.Machine.execRaise s
  | .query => Sys2Proof.Machine.execQuery s
  | .csrGet csr => Sys2Proof.Machine.execCsrGet csr s
  | .csrSet csr => Sys2Proof.Machine.execCsrSet csr s
  | .attach => Sys2Proof.Machine.execAttach s
  | .detach => Sys2Proof.Machine.execDetach s
  | .checkRegs => Sys2Proof.Machine.execCheckRegs s
  | .gprRead reg => Sys2Proof.Machine.execGprRead reg s
  | .gprWrite reg => Sys2Proof.Machine.execGprWrite reg s
  | .pcRead => Sys2Proof.Machine.execPcRead s
  | .pcWrite => Sys2Proof.Machine.execPcWrite s
  | .irqEdge => Sys2Proof.Machine.execIrqEdge s
  | .step => Sys2Proof.Machine.execStep s
  | .csrw csr rs1 => Sys2Proof.Machine.execCsrw csr rs1 s

end Sys2Proof.Machine
end

