-- ==== Sys2Proof/Machine/Snapshot.lean ====
section
/-! DEFINITION. The persisted layout of the state (20_memory.md R60). The operation is external (00_scope.md R8); what
it does to the machine is an event of the queue. -/

namespace Sys2Proof.Machine

/-- The CSR section, in the layout's order (20_memory.md R60). -/
def csrWords (c : Csrs) : List Word := [c.mstatus, c.mtvec, c.mepc, c.mcause, c.satp, c.mscratch]

/-- How many bytes of guest memory exist (20_memory.md R46). -/
def pmemCount (c : Config) : Nat := pmemEnd c - c.pmemBase.toNat

/-- The offset of the CSR section, after gpr and pc (20_memory.md R60). -/
def csrOffset (c : Config) : Nat := 4 * c.nrGpr.count + 4

/-- The offset of the memory section (20_memory.md R60). -/
def pmemOffset (c : Config) : Nat := 4 * c.nrGpr.count + 28

/-- Save: registers, CSRs, guest memory, no padding and no header (20_memory.md R60). -/
def snapshotOf (s : State) : List Byte :=
  wordsBytes (imageWords s.liveImage) ++ wordsBytes (csrWords s.csr) ++
    readBytes s.mem s.cfg.pmemBase.toNat (pmemCount s.cfg)

/-- The little-endian word at an offset of a byte sequence. -/
def wordAt (image : List Byte) (offset : Nat) : Word := leWord ((image.drop offset).take 4)

/-- The CSRs of a snapshot (20_memory.md R60). -/
def snapshotCsrs (c : Config) (image : List Byte) : Csrs where
  mstatus := wordAt image (csrOffset c)
  mtvec := wordAt image (csrOffset c + 4)
  mepc := wordAt image (csrOffset c + 8)
  mcause := wordAt image (csrOffset c + 12)
  satp := wordAt image (csrOffset c + 16)
  mscratch := wordAt image (csrOffset c + 20)

/-- Load: the inverse copy; everything the layout does not hold stays. gpr[0] ≠ 0 is refused (20_memory.md R60), and so
is a sequence of another size (assumption 18). -/
def loadSnapshot (image : List Byte) (s : State) : Host.Outcome State Fault Refusal :=
  if image.length = pmemOffset s.cfg + pmemCount s.cfg then
    if wordAt image 0 = 0 then
      .next { s with
        gpr := (List.range s.cfg.nrGpr.count).map (fun i => wordAt image (4 * i))
        pc := wordAt image (4 * s.cfg.nrGpr.count)
        csr := snapshotCsrs s.cfg image
        mem := writeBytes [] s.cfg.pmemBase.toNat (image.drop (pmemOffset s.cfg)) }
    else .refused .x0Write
  else .refused .badSnapshot

end Sys2Proof.Machine
end

