-- ==== Sys2Proof/Machine/Inputs.lean ====
section
/-! DEFINITION. What each input does, and how a word comes to be the next instruction: what Step.lean calls. -/

namespace Sys2Proof.Machine

/-- A command with its operands on the buses (30_encoding.md R61, R63); the decoder checks the halt first, then the
word (60_exceptions.md R126). -/
def takeCommand (word a b : Word) (s : State) : Host.Outcome State Fault Refusal :=
  if s.halted then .refused .halted
  else
    match decode .command word with
    | .ok i => exec i { s with busA := a, busB := b }
    | .error _ => .refused .illegalCommand

/-- One input, with the trace begun anew. The reference engine is no input: it runs only inside the foreign calls that
ATTACH and STEP make (00_scope.md R18, 42_cosim.md R107). -/
def takeEvent (e : Event) (s : State) : Host.Outcome State Fault Refusal :=
  match e with
  | .command word a b => takeCommand word a b s
  | .reset draws => .next (s.resetNow draws)
  | .snapshotLoad image => loadSnapshot image s

/-- Operand A that comes with a word offered by withFetchWord: what is on bus A, but a STEP whose count would be 0 is
offered with 1, the least that R63 allows it (assumption 9). -/
def offeredA (w : Word) (s : State) : Word :=
  if decode .command w = .ok .step ∧ s.busA = 0 then 1 else s.busA

/-- Offer a command as the very next input. -/
def State.offerCommand (s : State) (w : Word) : State :=
  { s with queue := .command w (offeredA w s) s.busB :: s.queue }

/-- Place a guest instruction where the reference engine fetches, and let the next command be a STEP of one
instruction on an attached sequencer, its RefExec complete: the reference runs inside foreign calls only (00_scope.md
R18, 42_cosim.md R118; assumption 8). -/
def State.offerGuestWord (s : State) (w : Word) : State :=
  { s with
    ref := { s.ref with mem := writeBytesWrap s.ref.mem s.ref.pc (leBytes 4 w) }
    cosim := .attached
    callFates := .complete :: s.callFates
    queue := .command (encode .step) 1 s.busB :: s.queue }

end Sys2Proof.Machine
end

