-- ==== Sys2Proof/Machine/Step.lean ====
section
/-! DEFINITION. One step of the machine. -/

namespace Sys2Proof.Machine

/-- One step takes the oldest input (30_encoding.md R61, 70_reset_and_hazards.md R149). With none offered nothing
happens: every state survives between commands (60_exceptions.md R136, assumption 8). -/
def step (s : State) : Host.Outcome State Fault Refusal :=
  match s.queue with
  | [] => .next s
  | e :: rest => takeEvent e { s with queue := rest, trace := [] }

/-- The word placed where the next step fetches: a command on the request channel, a bootstrap instruction at the
reference engine's pc with a STEP that runs it (assumption 8). -/
def State.withFetchWord (s : State) (_nbits w : Nat) : State :=
  match portOfWord (BitVec.ofNat 32 w) with
  | .command => s.offerCommand (BitVec.ofNat 32 w)
  | .reference => s.offerGuestWord (BitVec.ofNat 32 w)

end Sys2Proof.Machine
end

