-- ==== Sys2Proof/Safety.lean ====
section
/-! DEFINITION. The terms claims are stated in: the invariant and its parts, and numeric readings of addresses, bytes
and command words that do not go through the decoder or the bit-field helpers. -/

namespace Sys2Proof.Machine

/-- Every register file of the machine has NR_GPR registers (10_state.md R20, R33, R34, R35; 42_cosim.md R109). -/
abbrev State.FilesFit (s : State) : Prop :=
  s.gpr.length = s.cfg.nrGpr.count ∧ s.mirror.gpr.length = s.cfg.nrGpr.count ∧
    s.boot.gpr.length = s.cfg.nrGpr.count ∧ s.ref.gpr.length = s.cfg.nrGpr.count

/-- Guest memory is canonical and lists only addresses that exist (20_memory.md R46). -/
abbrev State.MemFits (s : State) : Prop :=
  Memory.wf s.mem ∧ ∀ c ∈ s.mem, s.cfg.pmemBase.toNat ≤ c.1 ∧ c.1 < pmemEnd s.cfg

/-- The reference's memory and CSR map are canonical, over 32-bit addresses and 12-bit numbers (20_memory.md R44). -/
abbrev State.RefFits (s : State) : Prop :=
  (Memory.wf s.ref.mem ∧ ∀ c ∈ s.ref.mem, c.1 < 2 ^ 32) ∧ (SparseWf s.ref.csrs ∧ ∀ c ∈ s.ref.csrs, c.1 < 2 ^ 12)

/-- A halt has a reason, and only a halt has one (10_state.md R37). -/
abbrev State.HaltFits (s : State) : Prop := s.halted = s.haltReason.isSome

/-- gpr[0] = 0 in every reachable state (10_state.md R21). -/
abbrev State.X0Zero (s : State) : Prop := readGpr s.gpr 0 = 0

/-- The invariant that holds after reset and that every step keeps. -/
abbrev State.Inv (s : State) : Prop :=
  s.FilesFit ∧ s.MemFits ∧ s.RefFits ∧ s.HaltFits ∧ s.X0Zero

/-- A run is safe as long as the block has not halted: a halt is never a successful end (60_exceptions.md R122). -/
abbrev State.Safe (s : State) : Prop := s.Inv ∧ s.halted = false

/-- Bytes pa .. pa+n-1 exist in guest physical memory (20_memory.md R46), as numbers. -/
abbrev InGuestMemory (c : Config) (pa n : Nat) : Prop :=
  c.pmemBase.toNat ≤ pa ∧ pa + n ≤ c.pmemBase.toNat + c.pmemSize ∧ pa + n ≤ 2 ^ 32

/-- Bytes pa .. pa+n-1 lie in one device window of the collaborator (20_memory.md R46) and in the 32-bit physical space
(R44; that a window ends there is the model's reading, assumption 17). -/
abbrev InDeviceWindow (c : Config) (pa n : Nat) : Prop :=
  ∃ d ∈ c.devices, d.base ≤ pa ∧ pa + n ≤ d.base + d.size ∧ pa + n ≤ 2 ^ 32

/-- The number that `n` bytes of guest memory from address `a` spell, the lowest address least significant
(20_memory.md R49). -/
def bytesValue (s : State) (a n : Nat) : Nat :=
  ((List.range n).map fun k => (s.byteAt (a + k)).toNat * 256 ^ k).sum

/-- Byte `k` of a word, the least significant being byte 0 (20_memory.md R49). -/
def byteOf (v : Word) (k : Nat) : Byte := BitVec.ofNat 8 (v.toNat / 256 ^ k)

/-- The level-1 PTE address as a number mod 2^32 (40_translation.md R80). -/
def level1Addr (satp vaddr : Word) : Word :=
  BitVec.ofNat 32 (satp.toNat % 2 ^ 22 * 4096 + vaddr.toNat / 2 ^ 22 * 4)

/-- The level-2 PTE address as a number mod 2^32 (40_translation.md R85). -/
def level2Addr (pte1 vaddr : Word) : Word :=
  BitVec.ofNat 32 (pte1.toNat / 2 ^ 10 * 4096 + vaddr.toNat / 2 ^ 12 % 2 ^ 10 * 4)

/-- The legal command words of an instance, field by field (30_encoding.md R62, R65, R66, R68). -/
def LegalCommandWord (c : Config) (word : Word) : Prop :=
  let op := word.toNat % 2 ^ 5
  let kind := word.toNat / 2 ^ 5 % 2 ^ 2
  let len := word.toNat / 2 ^ 7 % 2 ^ 4
  let csr := word.toNat / 2 ^ 11 % 2 ^ 12
  let reg := word.toNat / 2 ^ 23 % 2 ^ 5
  let rsv := word.toNat / 2 ^ 28
  rsv = 0 ∧
    ((op ∈ [0x01, 0x02] ∧ kind ≠ 3 ∧ len ∈ [1, 2, 4] ∧ csr = 0 ∧ reg = 0) ∨
     (op ∈ [0x03, 0x04, 0x05] ∧ kind = 0 ∧ len ∈ [1, 2, 4] ∧ csr = 0 ∧ reg = 0) ∨
     (op ∈ [0x08, 0x09] ∧ kind = 0 ∧ len = 0 ∧ reg = 0) ∨
     (op ∈ [0x0D, 0x0E] ∧ kind = 0 ∧ len = 0 ∧ csr = 0 ∧ reg < c.nrGpr.count) ∨
     (op ∈ [0x06, 0x07, 0x0A, 0x0B, 0x0C, 0x0F, 0x10, 0x11, 0x12] ∧ kind = 0 ∧ len = 0 ∧ csr = 0 ∧ reg = 0))

/-- The foreign calls of one command all transfer or execute fully (42_cosim.md R107). -/
abbrev State.CallsComplete (s : State) : Prop := ∀ f ∈ s.callFates, f = .complete

/-- The live register file and the mirror agree: every general register and pc (42_cosim.md R116). -/
abbrev State.MirrorAgrees (s : State) : Prop :=
  (∀ i < s.cfg.nrGpr.count, readGpr s.gpr i = readGpr s.mirror.gpr i) ∧ s.pc = s.mirror.pc

end Sys2Proof.Machine
end

