-- ==== Sys2Proof/Certificates/Slice0/Obligations.lean ====
section
/-! DEFINITION. The statements about the model. "cN" in a docstring is notes/assumptions/N.md. -/

open Sys2Proof Sys2Proof.Machine

/-! ### Words and instructions -/

/-- Every instruction's word decodes to it at its port, whatever its operands (30_encoding.md R65, R73). -/
def Obligations.EncodedInstructionDecodesBack : Prop :=
  ∀ i : Instr, decode i.port (encode i) = .ok i

/-- A word has one meaning: what it decodes to has that very word (30_encoding.md R65, R68, R73). -/
def Obligations.DecodedWordIsTheInstructionsWord : Prop :=
  ∀ (p : Port) (w : Word) (i : Instr), decode p w = .ok i → i.port = p ∧ encode i = w

/-- A few words of the spec's vectors, one for every family (95_test_vectors.md V6 to V9). -/
def Obligations.VectorWordsDecode : Prop :=
  decode .command 0x00000241#32 = .ok (.check .write .b4) ∧
  decode .command 0x000000A2#32 = .ok (.translate .read .b1) ∧
  decode .command 0x00000103#32 = .ok (.ifetch .b2) ∧
  decode .command 0x00000006#32 = .ok .raise ∧
  decode .command 0x00182809#32 = .ok (.csrSet 0x305#12) ∧
  decode .command 0x0F80000D#32 = .ok (.gprRead 31#5) ∧
  decode .command 0x00000010#32 = .ok .pcWrite ∧
  decode .command 0x00000012#32 = .ok .step ∧
  decode .reference 0x34029073#32 = .ok (.csrw 0x340#12 5#5)

/-- The bootstrap instruction's word, as a number (30_encoding.md R73). -/
def Obligations.BootstrapWordFormat : Prop :=
  ∀ (csr : BitVec 12) (rs1 : BitVec 5),
    (encode (.csrw csr rs1)).toNat =
      csr.toNat * 2 ^ 20 + rs1.toNat * 2 ^ 15 + 0b001 * 2 ^ 12 + 0 * 2 ^ 7 + 0x73

/-- The six bootstrap words, in order, each little-endian at RESET_VECTOR + 4k (30_encoding.md R75). -/
def Obligations.BootstrapWordsInMemory : Prop :=
  bootstrapProgram.map encode =
      [0x30009073#32, 0x30511073#32, 0x34119073#32, 0x34221073#32, 0x34029073#32, 0x18031073#32] ∧
  ∀ (m : Memory) (vector : Word), Memory.wf m →
    let after := writeBytesWrap m vector bootstrapBytes
    readBytesWrap after vector 4 = [0x73#8, 0x90#8, 0x00#8, 0x30#8] ∧
    readBytesWrap after (vector + 4) 4 = [0x73#8, 0x10#8, 0x51#8, 0x30#8] ∧
    readBytesWrap after (vector + 8) 4 = [0x73#8, 0x90#8, 0x11#8, 0x34#8] ∧
    readBytesWrap after (vector + 12) 4 = [0x73#8, 0x10#8, 0x22#8, 0x34#8] ∧
    readBytesWrap after (vector + 16) 4 = [0x73#8, 0x90#8, 0x02#8, 0x34#8] ∧
    readBytesWrap after (vector + 20) 4 = [0x73#8, 0x10#8, 0x03#8, 0x18#8]

/-! ### The step -/

/-- Reserved and illegal command words are refused, and only those are refused as illegal; while halted every command
is refused (30_encoding.md R68). A refusal has no next state: nothing changes. -/
def Obligations.IllegalCommandsAreRefused : Prop :=
  ∀ (s : State) (w a b : Word) (rest : List Event), s.queue = .command w a b :: rest →
    (s.halted = false → (step s = .refused .illegalCommand ↔ ¬ LegalCommandWord s.cfg w)) ∧
    (s.halted = true → step s = .refused .halted)

/-- A step runs the decoded command, its operands on the buses, and takes it off the queue (30_encoding.md R61). -/
def Obligations.StepRunsTheDecodedCommand : Prop :=
  ∀ (s : State) (w a b : Word) (rest : List Event) (i : Instr),
    s.queue = .command w a b :: rest → s.halted = false → decode .command w = .ok i →
      step s = exec i { s with queue := rest, trace := [], busA := a, busB := b }

/-- The reference engine runs a guest word only inside a foreign call (00_scope.md R18, 42_cosim.md R107, R109).
RefExec(1) where the word at its pc is a `csrw` is that instruction's meaning, whatever is assumed of the engine. A
`csrw` word offered by withFetchWord stands at that pc, and the very next step, a STEP of one instruction, runs it so
(the model's way in, c8). A step in which the reference changes is an ATTACH, or a STEP of an attached sequencer. With
no input offered nothing happens (c8). -/
def Obligations.StepRunsTheGuestWord : Prop :=
  (∀ (s : State) (csr : BitVec 12) (rs1 : BitVec 5), decode .reference (refFetch s.ref) = .ok (.csrw csr rs1) →
    exec (.csrw csr rs1) s = .next (refExecEffect 1 s)) ∧
  (∀ (s : State) (csr : BitVec 12) (rs1 : BitVec 5), s.Inv → s.CallsComplete → s.halted = false →
    let p := s.withFetchWord 32 (encode (.csrw csr rs1)).toNat
    decode .reference (refFetch p.ref) = .ok (.csrw csr rs1) ∧
    ∃ t u : State, step p = .next t ∧ exec (.csrw csr rs1) p = .next u ∧ t.ref = u.ref ∧
      t.mirror = ⟨u.ref.gpr, u.ref.pc⟩ ∧ t.trace = [.refExec 1, .refRegcpy t.mirror .fromReference]) ∧
  (∀ s t : State, step s = .next t → t.ref ≠ s.ref →
    ∃ w a b rest, s.queue = .command w a b :: rest ∧
      (decode .command w = .ok .attach ∨ decode .command w = .ok .step ∧ s.cosim = .attached)) ∧
  ∀ s : State, s.queue = [] → step s = .next s

/-- A word offered by withFetchWord is the very next instruction: every command that needs no operand to be legal, with
the buses as they stand (c8, c9). -/
def Obligations.OfferedCommandIsTheNextInstruction : Prop :=
  ∀ (s : State) (i : Instr), s.halted = false → i.port = .command → i ≠ .step →
    step (s.withFetchWord 32 (encode i).toNat) = exec i { s with trace := [] }

/-- No step answers the host's fault outcome: a Fatal is a next state with a halt record (60_exceptions.md R122, c6). -/
def Obligations.NoStepAnswersAFault : Prop :=
  ∀ (s : State) (r : Fault), step s ≠ .fault r

/-! ### The walker -/

/-- CHECK: 0 (Direct) when satp bit 31 is 0, else 1 (Translate), whatever `vaddr`, `len` and `kind` are
(40_translation.md R78). -/
def Obligations.CheckDecidesByModeAlone : Prop :=
  ∀ (kind : AccessKind) (len : AccessLen) (s : State),
    (encode (.check kind len)).toNat % 2 ^ 5 = 0x01 ∧
    (s.csr.satp.toNat < 2 ^ 31 → exec (.check kind len) s = .next (s.answer 0)) ∧
    (2 ^ 31 ≤ s.csr.satp.toNat → exec (.check kind len) s = .next (s.answer 1))

/-- PteRead: the four bytes, little-endian, if all of them are in guest memory, else nothing (20_memory.md R48). -/
def Obligations.PteReadIsFourBytesOrNothing : Prop :=
  ∀ (s : State) (pa : Word),
    (InGuestMemory s.cfg pa.toNat 4 → ∃ v, pteRead s pa = some v ∧ v.toNat = bytesValue s pa.toNat 4) ∧
    (¬ InGuestMemory s.cfg pa.toNat 4 → pteRead s pa = none)

/-- TRANSLATE through a level-1 leaf with PPN0 = 0: {PPN1, VPN0, offset} mod 2^32, one PTE read, every access kind
(40_translation.md R80, R82, R84). -/
def Obligations.TranslateThroughASuperpage : Prop :=
  ∀ (s : State) (kind : AccessKind) (len : AccessLen) (pte1 : Word),
    s.busA.toNat % 4096 + len.bytes ≤ 4096 →
    pteRead s (level1Addr s.csr.satp s.busA) = some pte1 →
    pte1.getLsbD 0 = true → (pte1.getLsbD 1 = true ∨ pte1.getLsbD 3 = true) →
    pte1.toNat / 2 ^ 10 % 2 ^ 10 = 0 →
    ∃ pa : Word, pa.toNat = (pte1.toNat / 2 ^ 20 * 2 ^ 22 + s.busA.toNat % 2 ^ 22) % 2 ^ 32 ∧
      exec (.translate kind len) s =
        .next ((s.logged [.pteRead (level1Addr s.csr.satp s.busA)]).answer pa)

/-- TRANSLATE through a level-1 pointer and a level-2 leaf with V = R = W = 1: {PPN, offset} mod 2^32, two PTE reads in
order, every access kind (40_translation.md R85, R87, R88). -/
def Obligations.TranslateThroughTwoLevels : Prop :=
  ∀ (s : State) (kind : AccessKind) (len : AccessLen) (pte1 pte2 : Word),
    s.busA.toNat % 4096 + len.bytes ≤ 4096 →
    pteRead s (level1Addr s.csr.satp s.busA) = some pte1 →
    pte1.getLsbD 0 = true → pte1.getLsbD 1 = false → pte1.getLsbD 3 = false →
    pteRead s (level2Addr pte1 s.busA) = some pte2 →
    pte2.getLsbD 0 = true → pte2.getLsbD 1 = true → pte2.getLsbD 2 = true →
    ∃ pa : Word, pa.toNat = (pte2.toNat / 2 ^ 10 * 4096 + s.busA.toNat % 4096) % 2 ^ 32 ∧
      exec (.translate kind len) s =
        .next ((s.logged [.pteRead (level1Addr s.csr.satp s.busA), .pteRead (level2Addr pte1 s.busA)]).answer pa)

/-- Every way a walk is Fatal, in the order of 60_exceptions.md R126: the reason, the PTE reads made by then (none
before a cross-page access), and nothing else changed (40_translation.md R79, R81, R83, R86, R87; 20_memory.md R48).
That a PteRead which fails is no read of the trace is the model's choice (c20). -/
def Obligations.TranslateHaltsInOrder : Prop :=
  ∀ (s : State) (kind : AccessKind) (len : AccessLen),
    let a1 := level1Addr s.csr.satp s.busA
    let halts (f : Fault) (reads : List Word) : Prop :=
      exec (.translate kind len) s = .next ((s.logged (reads.map .pteRead)).haltWith f)
    (4096 < s.busA.toNat % 4096 + len.bytes → halts .crossPage []) ∧
    (s.busA.toNat % 4096 + len.bytes ≤ 4096 →
      (pteRead s a1 = none → halts .physOutOfRange []) ∧
      ∀ pte1, pteRead s a1 = some pte1 →
        (pte1.getLsbD 0 = false → halts (.invalid .l1V) [a1]) ∧
        (pte1.getLsbD 0 = true → (pte1.getLsbD 1 = true ∨ pte1.getLsbD 3 = true) →
          pte1.toNat / 2 ^ 10 % 2 ^ 10 ≠ 0 → halts .misaligned [a1]) ∧
        (pte1.getLsbD 0 = true → pte1.getLsbD 1 = false → pte1.getLsbD 3 = false →
          let a2 := level2Addr pte1 s.busA
          (pteRead s a2 = none → halts .physOutOfRange [a1]) ∧
          ∀ pte2, pteRead s a2 = some pte2 →
            (pte2.getLsbD 0 = false → halts (.invalid .l2V) [a1, a2]) ∧
            (pte2.getLsbD 0 = true → (pte2.getLsbD 1 = false ∨ pte2.getLsbD 2 = false) →
              halts (.invalid .l2RW) [a1, a2])))

/-- The walk reads neither the access kind nor satp's MODE and ASID (40_translation.md R89). -/
def Obligations.WalkIgnoresKindModeAndAsid : Prop :=
  ∀ (s : State) (kind kind' : AccessKind) (len : AccessLen) (satp' vaddr : Word),
    exec (.translate kind len) s = exec (.translate kind' len) s ∧
    (satp'.toNat % 2 ^ 22 = s.csr.satp.toNat % 2 ^ 22 →
      walk { s with csr := { s.csr with satp := satp' } } vaddr len = walk s vaddr len)

/-- Where an access goes: to the virtual address itself while satp bit 31 is 0, with no cross-page check and no PTE
read, else where the walk says, the OR of the offset changing nothing (20_memory.md R45, R50; 40_translation.md R92). -/
def Obligations.PhysicalAddressOfAnAccess : Prop :=
  ∀ (s : State) (vaddr : Word) (len : AccessLen),
    (s.csr.satp.toNat < 2 ^ 31 → physAddr s vaddr len = ⟨.ok vaddr, []⟩) ∧
    (2 ^ 31 ≤ s.csr.satp.toNat → physAddr s vaddr len = walk s vaddr len)

/-- IFETCH and READ answer the bytes at the physical address, little-endian and zero-extended, at any alignment, and
change nothing (40_translation.md R92, R93; 20_memory.md R47, R49, R50). -/
def Obligations.LoadsAnswerTheBytes : Prop :=
  ∀ (s : State) (len : AccessLen) (pa : Word),
    (physAddr s s.busA len).result = .ok pa → InGuestMemory s.cfg pa.toNat len.bytes →
    ∃ v : Word, v.toNat = bytesValue s pa.toNat len.bytes ∧
      let t := (s.logged ((physAddr s s.busA len).reads.map .pteRead ++ [BusEvent.memRead pa len.bytes])).answer v
      exec (.ifetch len) s = .next t ∧ exec (.read len) s = .next t

/-- WRITE stores the low `len` bytes of bus B at the physical address, little-endian; every other byte of guest memory
and everything else in the machine stays (40_translation.md R94, 20_memory.md R47). -/
def Obligations.WriteStoresItsBytesOnly : Prop :=
  ∀ (s : State) (len : AccessLen) (pa : Word), s.MemFits →
    (physAddr s s.busA len).result = .ok pa → InGuestMemory s.cfg pa.toNat len.bytes →
    ∃ t : State, exec (.write len) s = .next t ∧
      (∀ k < len.bytes, t.byteAt (pa.toNat + k) = byteOf s.busB k) ∧
      (∀ a, a < pa.toNat ∨ pa.toNat + len.bytes ≤ a → t.byteAt a = s.byteAt a) ∧
      t.response = some ⟨.ok, false, 0, []⟩ ∧
      { t with mem := s.mem, response := s.response, trace := s.trace } = s

/-- What a WRITE stored, the next READ and the next IFETCH of the same bytes answer, translated or not, at whatever
virtual address they then have (20_memory.md R54, R58). They still have the WRITE's own virtual address where the store
hit no PTE of its walk, so where translation is off they always do. -/
def Obligations.StoredBytesAreLoaded : Prop :=
  ∀ (s t : State) (len : AccessLen) (pa : Word), s.MemFits →
    (physAddr s s.busA len).result = .ok pa → InGuestMemory s.cfg pa.toNat len.bytes → exec (.write len) s = .next t →
    (∀ vaddr : Word, (physAddr t vaddr len).result = .ok pa →
      ∃ v : Word, v.toNat = s.busB.toNat % 2 ^ (8 * len.bytes) ∧
        let r := { t with busA := vaddr }
        let u := (r.logged ((physAddr t vaddr len).reads.map .pteRead ++ [BusEvent.memRead pa len.bytes])).answer v
        exec (.read len) r = .next u ∧ exec (.ifetch len) r = .next u) ∧
    ((∀ a ∈ (physAddr s s.busA len).reads, a.toNat + 4 ≤ pa.toNat ∨ pa.toNat + len.bytes ≤ a.toNat) →
      physAddr t s.busA len = physAddr s s.busA len)

/-- IFETCH, READ and WRITE halt for what the walk halts for, and for a physical address whose bytes lie in neither guest
memory nor one device window; no byte is stored then (40_translation.md R92 to R94, 20_memory.md R46, 60_exceptions.md
R126). The model's choices: an access that straddles guest memory and a device, or two device windows, or runs past the
32-bit physical addresses, halts so as a whole and stores nothing (c17), and an access that fails is not in the trace (c20). -/
def Obligations.AccessesHaltWithoutEffect : Prop :=
  ∀ (s : State) (len : AccessLen),
    let w := physAddr s s.busA len
    let halts (f : Fault) : Prop :=
      let t := (s.logged (w.reads.map .pteRead)).haltWith f
      exec (.ifetch len) s = .next t ∧ exec (.read len) s = .next t ∧ exec (.write len) s = .next t
    (∀ f, w.result = .error f → halts f) ∧
    (∀ pa, w.result = .ok pa → ¬ InGuestMemory s.cfg pa.toNat len.bytes →
      ¬ InDeviceWindow s.cfg pa.toNat len.bytes → halts .physOutOfRange)

/-- An access to a device window completes: a load answers a free value, whatever it is, cut to the access's length; a
store leaves guest memory as it was (the model's reading of 93_implementation_defined.md U19, c15). No window reaches
past the 32-bit physical addresses (c17). -/
def Obligations.DeviceAccessesComplete : Prop :=
  ∀ (s : State) (len : AccessLen) (pa : Word),
    (physAddr s s.busA len).result = .ok pa → ¬ InGuestMemory s.cfg pa.toNat len.bytes →
    InDeviceWindow s.cfg pa.toNat len.bytes →
    ∃ v : Word, v.toNat = (Config.freeWord s.draws).toNat % 2 ^ (8 * len.bytes) ∧
      let reads : List BusEvent := (physAddr s s.busA len).reads.map .pteRead
      let t := { s.logged (reads ++ [BusEvent.memRead pa len.bytes]) with draws := s.draws + 1 }.answer v
      exec (.ifetch len) s = .next t ∧ exec (.read len) s = .next t ∧
      exec (.write len) s =
        .next ((s.logged (reads ++ [.memWrite pa ((List.range len.bytes).map (byteOf s.busB))])).answer 0)

/-! ### Trap entry and interrupts -/

/-- RAISE, in any state: mepc, mcause, MPIE and MIE written, mtvec answered, every other bit of mstatus and everything
else in the machine unchanged, pc included (41_trap_csr.md R97). -/
def Obligations.RaiseEntersTheTrap : Prop :=
  decode .command 0x06#32 = .ok .raise ∧
  ∀ s : State, ∃ t : State, exec .raise s = .next t ∧
    t.csr.mepc = s.busB ∧ t.csr.mcause = s.busA ∧
    t.csr.mstatus.getLsbD 7 = s.csr.mstatus.getLsbD 3 ∧ t.csr.mstatus.getLsbD 3 = false ∧
    (∀ k, k ≠ 3 → k ≠ 7 → t.csr.mstatus.getLsbD k = s.csr.mstatus.getLsbD k) ∧
    t.response = some ⟨.ok, false, s.csr.mtvec, []⟩ ∧
    { t with
      csr := { t.csr with mepc := s.csr.mepc, mcause := s.csr.mcause, mstatus := s.csr.mstatus }
      response := s.response } = s

/-- QUERY delivers IRQ_TIMER and clears the latch exactly when MIE = 1, mtvec ≠ 0 and the latch is set; otherwise it
answers None and the latch stays; it never writes a CSR (41_trap_csr.md R98). -/
def Obligations.QueryDeliversOrAnswersNone : Prop :=
  decode .command 0x07#32 = .ok .query ∧
  ∀ s : State,
    (s.csr.mstatus.getLsbD 3 = true → s.csr.mtvec ≠ 0 → s.pending = true →
      exec .query s = .next { s with pending := false, response := some ⟨.ok, true, s.cfg.irqTimer, []⟩ }) ∧
    (s.csr.mstatus.getLsbD 3 = false ∨ s.csr.mtvec = 0 ∨ s.pending = false →
      exec .query s = .next { s with response := some ⟨.ok, false, 0, []⟩ })

/-- IRQ_EDGE sets the latch, set or not, and nothing else (41_trap_csr.md R99). -/
def Obligations.IrqEdgeSetsTheLatch : Prop :=
  decode .command 0x11#32 = .ok .irqEdge ∧
  ∀ s : State, exec .irqEdge s = .next { s with pending := true, response := some ⟨.ok, false, 0, []⟩ }

/-- Two edges before a delivering QUERY give one delivery (70_reset_and_hazards.md R143): the commands run one after the
other from the queue. -/
def Obligations.TwoEdgesDeliverOnce : Prop :=
  ∀ (s : State) (a b : Word) (rest : List Event),
    s.halted = false → s.csr.mstatus.getLsbD 3 = true → s.csr.mtvec ≠ 0 →
    s.queue = .command 0x11 a b :: .command 0x11 a b :: .command 0x07 a b :: .command 0x07 a b :: rest →
    ∃ t u : State,
      Host.Core.run ⟨State, Fault, Refusal, step, s⟩ 3 s = .next t ∧
      t.response = some ⟨.ok, true, s.cfg.irqTimer, []⟩ ∧ t.pending = false ∧
      step t = .next u ∧ u.response = some ⟨.ok, false, 0, []⟩ ∧ u.pending = false ∧ u.queue = rest

/-- Only IRQ_EDGE sets the latch and only a delivering QUERY clears it (10_state.md R24). -/
def Obligations.OnlyEdgesAndQueriesMoveTheLatch : Prop :=
  ∀ (i : Instr) (s t : State), exec i s = .next t → t.pending ≠ s.pending →
    (i = .irqEdge ∧ t.pending = true) ∨
    (i = .query ∧ t.pending = false ∧ s.csr.mstatus.getLsbD 3 = true ∧ s.csr.mtvec ≠ 0)

/-- The trap unit's transitions: RAISE moves it to Disabled, a CSR_SET of mstatus to the state bit 3 of the value names,
no other command changes it (41_trap_csr.md R96). -/
def Obligations.OnlyRaiseAndCsrSetMoveTheTrapUnit : Prop :=
  ∀ (i : Instr) (s t : State), exec i s = .next t →
    (i = .raise → mieOf t.csr.mstatus = false) ∧
    (i = .csrSet 0x300 → mieOf t.csr.mstatus = s.busA.getLsbD 3) ∧
    (i ≠ .raise → i ≠ .csrSet 0x300 → mieOf t.csr.mstatus = mieOf s.csr.mstatus)

/-- Which instruction may write which state (10_state.md R22, R23, R33, R35, R36; 41_trap_csr.md R97 to R102): whatever
changed, its own writer ran; parameters, buses and the queue never change inside an instruction. -/
def Obligations.EachRegisterHasItsWriters : Prop :=
  ∀ (i : Instr) (s t : State), exec i s = .next t →
    (t.gpr ≠ s.gpr → ∃ r, i = .gprWrite r) ∧
    (t.pc ≠ s.pc → i = .pcWrite) ∧
    (t.csr.satp ≠ s.csr.satp → i = .csrSet 0x180) ∧
    (t.csr.mtvec ≠ s.csr.mtvec → i = .csrSet 0x305) ∧
    (t.csr.mscratch ≠ s.csr.mscratch → i = .csrSet 0x340) ∧
    (t.csr.mepc ≠ s.csr.mepc → i = .raise ∨ i = .csrSet 0x341) ∧
    (t.csr.mcause ≠ s.csr.mcause → i = .raise ∨ i = .csrSet 0x342) ∧
    (t.csr.mstatus ≠ s.csr.mstatus → i = .raise ∨ i = .csrSet 0x300) ∧
    (t.mirror ≠ s.mirror → i = .attach ∨ i = .step) ∧
    (t.boot ≠ s.boot → i = .attach) ∧
    (t.cosim ≠ s.cosim → i = .attach ∨ i = .detach) ∧
    (t.mem ≠ s.mem → ∃ len, i = .write len) ∧
    (t.ref ≠ s.ref → i = .attach ∨ i = .step ∨ ∃ c r, i = .csrw c r) ∧
    t.cfg = s.cfg ∧ t.queue = s.queue ∧ t.busA = s.busA ∧ t.busB = s.busB

/-! ### CSRs -/

/-- CSR_GET of each of the six answers all 32 bits as stored and changes nothing; any other number halts
(41_trap_csr.md R101). -/
def Obligations.CsrGetAnswersTheSix : Prop :=
  (∀ n : BitVec 12, (encode (.csrGet n)).toNat = n.toNat * 2 ^ 11 + 0x08) ∧
  ∀ s : State,
    exec (.csrGet 0x300) s = .next (s.answer s.csr.mstatus) ∧
    exec (.csrGet 0x305) s = .next (s.answer s.csr.mtvec) ∧
    exec (.csrGet 0x341) s = .next (s.answer s.csr.mepc) ∧
    exec (.csrGet 0x342) s = .next (s.answer s.csr.mcause) ∧
    exec (.csrGet 0x180) s = .next (s.answer s.csr.satp) ∧
    exec (.csrGet 0x340) s = .next (s.answer s.csr.mscratch) ∧
    ∀ n : BitVec 12, n ∉ [0x300#12, 0x305#12, 0x341#12, 0x342#12, 0x180#12, 0x340#12] →
      exec (.csrGet n) s = .next (s.haltWith .unknownId)

/-- CSR_SET of each of the six stores all 32 bits of bus A there and changes nothing else; any other number halts
(41_trap_csr.md R102). -/
def Obligations.CsrSetStoresTheSix : Prop :=
  (∀ n : BitVec 12, (encode (.csrSet n)).toNat = n.toNat * 2 ^ 11 + 0x09) ∧
  ∀ s : State,
    exec (.csrSet 0x300) s = .next ({ s with csr := { s.csr with mstatus := s.busA } }.answer 0) ∧
    exec (.csrSet 0x305) s = .next ({ s with csr := { s.csr with mtvec := s.busA } }.answer 0) ∧
    exec (.csrSet 0x341) s = .next ({ s with csr := { s.csr with mepc := s.busA } }.answer 0) ∧
    exec (.csrSet 0x342) s = .next ({ s with csr := { s.csr with mcause := s.busA } }.answer 0) ∧
    exec (.csrSet 0x180) s = .next ({ s with csr := { s.csr with satp := s.busA } }.answer 0) ∧
    exec (.csrSet 0x340) s = .next ({ s with csr := { s.csr with mscratch := s.busA } }.answer 0) ∧
    ∀ n : BitVec 12, n ∉ [0x300#12, 0x305#12, 0x341#12, 0x342#12, 0x180#12, 0x340#12] →
      exec (.csrSet n) s = .next (s.haltWith .unknownId)

/-- A CSR keeps what CSR_SET stored, bit for bit, and no other CSR changes: CSR_GET after CSR_SET (10_state.md R26). -/
def Obligations.CsrSetThenGet : Prop :=
  ∀ (s t u : State) (n m : BitVec 12),
    exec (.csrSet n) s = .next t → exec (.csrGet m) t = .next u → t.halted = false → u.halted = false →
    ∃ v, exec (.csrGet m) s = .next (s.answer v) ∧
      u.response = some ⟨.ok, false, if m = n then s.busA else v, []⟩

/-! ### Register-file ports -/

/-- GPR_READ answers gpr[reg] and changes nothing; an index ≥ NR_GPR is refused (41_trap_csr.md R103). -/
def Obligations.GprReadAnswersTheRegister : Prop :=
  ∀ (s : State) (reg : BitVec 5),
    (encode (.gprRead reg)).toNat = reg.toNat * 2 ^ 23 + 0x0D ∧
    (reg.toNat < s.cfg.nrGpr.count → exec (.gprRead reg) s = .next (s.answer (readGpr s.gpr reg.toNat))) ∧
    (s.cfg.nrGpr.count ≤ reg.toNat → exec (.gprRead reg) s = .refused .illegalCommand)

/-- GPR_WRITE stores bus A in gpr[reg], and no other register nor anything else changes; a non-zero write to x0 is
refused, a zero one changes nothing; an index ≥ NR_GPR is refused (41_trap_csr.md R104). -/
def Obligations.GprWriteStoresItsRegisterOnly : Prop :=
  ∀ (s : State) (reg : BitVec 5), s.FilesFit → s.X0Zero →
    (encode (.gprWrite reg)).toNat = reg.toNat * 2 ^ 23 + 0x0E ∧
    (s.cfg.nrGpr.count ≤ reg.toNat → exec (.gprWrite reg) s = .refused .illegalCommand) ∧
    (reg = 0 → s.busA ≠ 0 → exec (.gprWrite reg) s = .refused .x0Write) ∧
    (reg = 0 → s.busA = 0 → exec (.gprWrite reg) s = .next (s.answer 0)) ∧
    (reg ≠ 0 → reg.toNat < s.cfg.nrGpr.count →
      ∃ t : State, exec (.gprWrite reg) s = .next t ∧ readGpr t.gpr reg.toNat = s.busA ∧
        (∀ j, j ≠ reg.toNat → readGpr t.gpr j = readGpr s.gpr j) ∧ t.gpr.length = s.gpr.length ∧
        t.response = some ⟨.ok, false, 0, []⟩ ∧
        { t with gpr := s.gpr, response := s.response } = s)

/-- PC_READ answers pc; PC_WRITE stores bus A in pc as given, odd or not; nothing else changes
(41_trap_csr.md R105, R106). -/
def Obligations.PcPortsReadAndStorePc : Prop :=
  decode .command 0x0F#32 = .ok .pcRead ∧ decode .command 0x10#32 = .ok .pcWrite ∧
  ∀ s : State,
    exec .pcRead s = .next { s with response := some ⟨.ok, false, s.pc, []⟩ } ∧
    exec .pcWrite s = .next { s with pc := s.busA, response := some ⟨.ok, false, 0, []⟩ }

/-! ### The reference engine -/

/-- `csrw` under REF-RV: CSR[csr] becomes the reference's legalised view of x[rs1], free as it is, and pc moves on by 4;
x0 reads zero (42_cosim.md R109; c11, c12). That nothing else of the reference changes, no other CSR and no hidden state,
is the model's choice (c30). On a reference of which nothing is assumed (R109), and
for a register the reference has not (c11), the engine's next state is a free draw. -/
def Obligations.CsrwWritesTheReferenceCsr : Prop :=
  ∀ (s : State) (csr : BitVec 12) (rs1 : BitVec 5), s.RefFits →
    (s.cfg.ref = .refRV → rs1.toNat < s.cfg.nrGpr.count →
      ∃ t : State, exec (.csrw csr rs1) s = .next t ∧
        sparseGet t.ref.csrs csr.toNat =
          Config.legalised s.draws csr (if rs1 = 0 then 0 else readGpr s.ref.gpr rs1.toNat) ∧
        (∀ n, n ≠ csr.toNat → sparseGet t.ref.csrs n = sparseGet s.ref.csrs n) ∧
        t.ref.pc = s.ref.pc + 4 ∧
        { t with ref := { t.ref with csrs := s.ref.csrs, pc := s.ref.pc }, draws := s.draws } = s) ∧
    (s.cfg.ref = .blackBox ∨ s.cfg.nrGpr.count ≤ rs1.toNat → exec (.csrw csr rs1) s = .next s.drawEngine)

/-- RefMemcpy there and back: what was copied to reference memory is copied back, and sizes that disagree are Fatal
(42_cosim.md R107, R108; 20_memory.md R53). -/
def Obligations.RefMemcpyCopiesExactly : Prop :=
  (∀ (s t : State) (addr : Word) (bytes : List Byte), s.RefFits → s.CallsComplete → bytes.length ≤ 2 ^ 32 →
    refMemcpyTo addr bytes bytes.length s = .ok t →
    ∃ u, refMemcpyFrom addr bytes.length bytes.length t = .ok (bytes, u) ∧ u.ref = t.ref ∧ t.mem = s.mem) ∧
  (∀ (s : State) (addr : Word) (bytes : List Byte) (len : Nat), bytes.length ≠ len →
    refMemcpyTo addr bytes len s = .error (.foreignCallSize, s)) ∧
  (∀ (s : State) (addr : Word) (len size : Nat), size ≠ len →
    refMemcpyFrom addr len size s = .error (.foreignCallSize, s))

/-- Every foreign call that is cut short leaves the reference's whole state a free draw (42_cosim.md R108,
93_implementation_defined.md U1), what it copies into, the block's buffer or the mirror, a free value too (c14), and
everything else in the machine as it was. A RefExec on a black box, cut short or not, is such a draw (R109, U2). -/
def Obligations.CutShortCallsDrawTheReference : Prop :=
  ∀ s : State,
    let drawn (t : State) : Prop :=
      t.ref = fitEngine s.cfg (Config.freeEngine s.draws) ∧
        { t with ref := s.ref, callFates := s.callFates, draws := s.draws, trace := s.trace } = s
    (s.callFates.head? = some .cutShort →
      (∀ (addr : Word) (bytes : List Byte), ∃ t, refMemcpyTo addr bytes bytes.length s = .ok t ∧ drawn t) ∧
      (∀ (addr : Word) (len : Nat),
        ∃ t, refMemcpyFrom addr len len s = .ok ((List.range len).map (Config.freeByte (s.draws + 1)), t) ∧ drawn t) ∧
      (∀ g : RegImage, imageSize g = 4 * s.cfg.nrGpr.count + 4 → ∃ t, refRegcpyTo g s = .ok t ∧ drawn t) ∧
      (s.ref.gpr.length = s.cfg.nrGpr.count → ∃ t, refRegcpyFrom s = .ok t ∧
        t.mirror = fitImage s.cfg.nrGpr.count (Config.freeImage (s.draws + 1)) ∧ drawn { t with mirror := s.mirror }) ∧
      ∀ n : Word, drawn (refExec n s)) ∧
    (s.cfg.ref = .blackBox → ∀ n : Word, drawn (refExec n s))

/-! ### The mirror -/

/-- ATTACH with the 24 bytes at RESET_VECTOR in guest memory completes, in either mode, and whatever becomes of its
foreign calls (that it goes on after one cut short is the model's choice, c14): the scratch image carries the six CSRs in x1 to x6, the live registers elsewhere and RESET_VECTOR in pc;
the mode is ATTACHED; gpr, pc, CSRs, latch and DUT memory are unchanged (42_cosim.md R111, R112, R113). -/
def Obligations.AttachCompletes : Prop :=
  decode .command 0x0A#32 = .ok .attach ∧
  ∀ s : State, s.FilesFit → InGuestMemory s.cfg s.cfg.resetVector.toNat 24 →
    ∃ t : State, exec .attach s = .next t ∧ t.cosim = .attached ∧ t.response = some ⟨.ok, false, 0, []⟩ ∧
      t.boot.pc = s.cfg.resetVector ∧
      readGpr t.boot.gpr 1 = s.csr.mstatus ∧ readGpr t.boot.gpr 2 = s.csr.mtvec ∧
      readGpr t.boot.gpr 3 = s.csr.mepc ∧ readGpr t.boot.gpr 4 = s.csr.mcause ∧
      readGpr t.boot.gpr 5 = s.csr.mscratch ∧ readGpr t.boot.gpr 6 = s.csr.satp ∧
      (∀ i, i = 0 ∨ 6 < i → readGpr t.boot.gpr i = readGpr s.gpr i) ∧
      { t with
        mirror := s.mirror, boot := s.boot, cosim := s.cosim, ref := s.ref, callFates := s.callFates
        draws := s.draws, response := s.response, trace := s.trace } = s

/-- ATTACH checks RESET_VECTOR .. RESET_VECTOR+23 before any foreign call: outside guest memory it halts with
PhysOutOfRange, no call made (42_cosim.md R113, 95_test_vectors.md V10). -/
def Obligations.AttachOutsideMemoryHaltsFirst : Prop :=
  ∀ s : State, ¬ InGuestMemory s.cfg s.cfg.resetVector.toNat 24 →
    exec .attach s = .next (s.haltWith .physOutOfRange)

/-- The six foreign calls of ATTACH, in order, when they complete: the bootstrap bytes, the scratch image, RefExec(6),
the live image, the DUT's own 24 bytes, and the mirror's refresh, which copies the live image (42_cosim.md R113). -/
def Obligations.AttachMakesSixCalls : Prop :=
  ∀ s : State, s.FilesFit → s.CallsComplete → InGuestMemory s.cfg s.cfg.resetVector.toNat 24 →
    ∃ t : State, exec .attach s = .next t ∧
      t.trace = s.trace ++
        [.refMemcpy s.cfg.resetVector 24 bootstrapBytes .toReference, .refRegcpy t.boot .toReference, .refExec 6,
         .refRegcpy ⟨s.gpr, s.pc⟩ .toReference, .pmemBytes s.cfg.resetVector 24,
         .refMemcpy s.cfg.resetVector 24 (readBytes s.mem s.cfg.resetVector.toNat 24) .toReference,
         .refRegcpy ⟨s.gpr, s.pc⟩ .fromReference]

/-- After ATTACH, its calls complete, whatever RefExec did: the mirror is the live image and an immediate CHECK_REGS
answers 1 with no record (42_cosim.md R114, R116); and the reference's registers and pc are the live ones, its 24 bytes
at RESET_VECTOR the DUT's. R114 says of these last three under REF-RV only: that they hold without it is the model's
reading of the exact copies of R109 in calls (4) and (5) of R113 (c29). -/
def Obligations.AttachThenCheckRegsAgrees : Prop :=
  ∀ s : State, s.Inv → s.CallsComplete → InGuestMemory s.cfg s.cfg.resetVector.toNat 24 →
    ∃ t u : State, exec .attach s = .next t ∧
      t.mirror = ⟨s.gpr, s.pc⟩ ∧ t.ref.gpr = s.gpr ∧ t.ref.pc = s.pc ∧
      readBytesWrap t.ref.mem s.cfg.resetVector 24 = readBytes s.mem s.cfg.resetVector.toNat 24 ∧
      exec .checkRegs t = .next u ∧ u.response = some ⟨.ok, false, 1, []⟩

/-- Under REF-RV, ATTACH transfers the six CSRs: each of the reference's equals the DUT's up to the reference's own
legalisation (42_cosim.md R114, 95_test_vectors.md P5; c11, c12). That no other reference CSR changes is the model's
choice (c30). -/
def Obligations.AttachTransfersTheCsrsUnderRefRv : Prop :=
  ∀ s : State, s.Inv → s.CallsComplete → s.cfg.ref = .refRV →
    InGuestMemory s.cfg s.cfg.resetVector.toNat 24 →
    ∃ t : State, exec .attach s = .next t ∧
      sparseGet t.ref.csrs 0x300 = Config.legalised s.draws 0x300 s.csr.mstatus ∧
      sparseGet t.ref.csrs 0x305 = Config.legalised (s.draws + 1) 0x305 s.csr.mtvec ∧
      sparseGet t.ref.csrs 0x341 = Config.legalised (s.draws + 2) 0x341 s.csr.mepc ∧
      sparseGet t.ref.csrs 0x342 = Config.legalised (s.draws + 3) 0x342 s.csr.mcause ∧
      sparseGet t.ref.csrs 0x340 = Config.legalised (s.draws + 4) 0x340 s.csr.mscratch ∧
      sparseGet t.ref.csrs 0x180 = Config.legalised (s.draws + 5) 0x180 s.csr.satp ∧
      ∀ n, n ∉ [0x300, 0x305, 0x341, 0x342, 0x340, 0x180] → sparseGet t.ref.csrs n = sparseGet s.ref.csrs n

/-- DETACH, in either mode: the mode becomes DETACHED and nothing else changes, no foreign call (42_cosim.md R115). -/
def Obligations.DetachOnlyChangesTheMode : Prop :=
  decode .command 0x0B#32 = .ok .detach ∧
  ∀ s : State, exec .detach s = .next { s with cosim := .detached, response := some ⟨.ok, false, 0, []⟩ }

/-- CHECK_REGS, in either mode: value 1 and no record exactly when every register and pc agree; otherwise one record for
each register that differs, and for no other, in index order with pc last; nothing else changes (42_cosim.md R116). -/
def Obligations.CheckRegsReportsEveryMismatch : Prop :=
  decode .command 0x0C#32 = .ok .checkRegs ∧
  ∀ s : State, ∃ (v : Word) (mm : List Mismatch),
    exec .checkRegs s = .next { s with response := some ⟨.ok, false, v, mm⟩ } ∧
    (v = 1 ∧ mm = [] ∧ s.MirrorAgrees ∨ v = 0 ∧ mm ≠ [] ∧ ¬ s.MirrorAgrees) ∧
    (∀ r, r ∈ mm ↔
      (∃ i < s.cfg.nrGpr.count, readGpr s.gpr i ≠ readGpr s.mirror.gpr i ∧
        r = ⟨s.cfg.regNames.getD i "", i, readGpr s.gpr i, readGpr s.mirror.gpr i, s.busB⟩) ∨
      (s.pc ≠ s.mirror.pc ∧ r = ⟨"pc", s.cfg.nrGpr.count, s.pc, s.mirror.pc, s.busB⟩)) ∧
    mm.Pairwise (fun x y => x.index < y.index)

/-- STEP: n = 0 is refused; detached it answers 1 and does nothing; attached it makes RefExec(n) and the mirror's
refresh, in that order, and answers what CHECK_REGS of the refreshed mirror answers; the live machine is unchanged
(42_cosim.md R118). -/
def Obligations.StepStepsTheReferenceAndCompares : Prop :=
  decode .command 0x12#32 = .ok .step ∧
  ∀ s : State, s.FilesFit →
    (s.busA = 0 → exec .step s = .refused .badCount) ∧
    (s.busA ≠ 0 → s.cosim = .detached → exec .step s = .next (s.answer 1)) ∧
    (s.busA ≠ 0 → s.cosim = .attached →
      ∃ t : State, exec .step s = .next t ∧
        (s.CallsComplete → t.ref = (refExec s.busA s).ref ∧ t.mirror = ⟨t.ref.gpr, t.ref.pc⟩ ∧
          t.trace = s.trace ++ [.refExec s.busA, .refRegcpy ⟨t.ref.gpr, t.ref.pc⟩ .fromReference]) ∧
        exec .checkRegs t = .next t ∧
        { t with
          mirror := s.mirror, ref := s.ref, callFates := s.callFates, draws := s.draws
          response := s.response, trace := s.trace } = s)

/-- A mismatch is no fault: CHECK_REGS and STEP never halt the block and never change the live state
(42_cosim.md R119). -/
def Obligations.MismatchesAreNotFaults : Prop :=
  ∀ (i : Instr) (s t : State), s.FilesFit → i = .checkRegs ∨ i = .step → exec i s = .next t →
    t.halted = s.halted ∧ t.haltReason = s.haltReason ∧ t.gpr = s.gpr ∧ t.pc = s.pc ∧ t.csr = s.csr ∧
      t.pending = s.pending ∧ t.mem = s.mem

/-! ### Faults, halting, responses -/

/-- A command that is Fatal sets the halt record and answers FATAL with the same reason; it changes nothing else
(60_exceptions.md R122). The trace is the model's own. -/
def Obligations.FatalChangesOnlyTheHaltRecord : Prop :=
  ∀ (i : Instr) (s t : State), s.FilesFit → s.halted = false → exec i s = .next t → t.halted = true →
    ∃ f : Fault, t.haltReason = some f ∧ t.response = some ⟨.fatal f, false, 0, []⟩ ∧
      { t with
        halted := s.halted, haltReason := s.haltReason, response := s.response, trace := s.trace } = s

/-- Only a reset clears the halt (10_state.md R37). -/
def Obligations.OnlyResetClearsTheHalt : Prop :=
  ∀ s t : State, step s = .next t → s.halted = true → t.halted = false →
    ∃ draws rest, s.queue = .reset draws :: rest

/-- ForeignCallSize cannot be reached: the block's own calls have consistent sizes (42_cosim.md R108). -/
def Obligations.ForeignCallSizeIsUnreachable : Prop :=
  ∀ s t : State, s.Inv → step s = .next t → t.haltReason = some .foreignCallSize →
    s.haltReason = some .foreignCallSize

/-- Every command answers; `valid` is set by QUERY alone, records come from CHECK_REGS and STEP alone
(30_encoding.md R64). -/
def Obligations.ResponsesHaveTheirShape : Prop :=
  ∀ (i : Instr) (s t : State), exec i s = .next t → i.port = .command →
    ∃ r : Response, t.response = some r ∧ (r.valid = true → i = .query) ∧
      (r.mismatches ≠ [] → i = .checkRegs ∨ i = .step) ∧ (∀ why, r.status ≠ .refused why)

/-- An unused bus is ignored (30_encoding.md R63): running with another value on it gives the same outcome, that bus
apart. -/
def Obligations.UnusedBusesAreIgnored : Prop :=
  ∀ (i : Instr) (s : State) (v : Word),
    (i ∈ [.query, .attach, .detach, .checkRegs, .pcRead, .irqEdge] ∨ (∃ k n, i = .check k n) ∨
      (∃ c, i = .csrGet c) ∨ (∃ r, i = .gprRead r) ∨ (∃ c r, i = .csrw c r) →
      (∀ t, exec i s = .next t → exec i { s with busA := v } = .next { t with busA := v }) ∧
      (∀ r, exec i s = .refused r → exec i { s with busA := v } = .refused r)) ∧
    (i ∉ [.raise, .checkRegs, .step] → (∀ n, i ≠ .write n) →
      (∀ t, exec i s = .next t → exec i { s with busB := v } = .next { t with busB := v }) ∧
      (∀ r, exec i s = .refused r → exec i { s with busB := v } = .refused r))

/-! ### Reset -/

/-- An instance after reset, for any parameters, draws, loaded memory and reference engine (10_state.md R41, R42, R43). -/
def Obligations.ResetGivesTheStatedValues : Prop :=
  ∀ (c : Config) (d : ResetDraws) (m : Memory) (r : RefEngine),
    let s := State.powerOn c d m r
    s.pc = c.resetVector ∧ readGpr s.gpr 0 = 0 ∧ s.pending = false ∧
    s.csr.mstatus = 0 ∧ s.csr.mtvec = 0 ∧ s.csr.mepc = 0 ∧ s.csr.mcause = 0 ∧ s.csr.satp = 0 ∧ s.csr.mscratch = 0 ∧
    s.cosim = .detached ∧ s.halted = false ∧ s.haltReason = none ∧
    (∀ i, 0 < i → i < c.nrGpr.count → readGpr s.gpr i = readGpr d.gpr i) ∧
    (∀ i, i < c.nrGpr.count → readGpr s.mirror.gpr i = readGpr d.mirror.gpr i) ∧ s.mirror.pc = d.mirror.pc ∧
    (∀ i, i < c.nrGpr.count → readGpr s.boot.gpr i = readGpr d.boot.gpr i) ∧ s.boot.pc = d.boot.pc

/-- A reset, halted or not, gives those values again and makes no memory access and no foreign call
(70_reset_and_hazards.md R137). -/
def Obligations.ResetStepResets : Prop :=
  ∀ (s : State) (d : ResetDraws) (rest : List Event), s.queue = .reset d :: rest →
    ∃ t : State, step s = .next t ∧ t.mem = s.mem ∧ t.ref = s.ref ∧ t.cfg = s.cfg ∧ t.trace = [] ∧ t.queue = rest ∧
      t.gpr = (State.powerOn s.cfg d s.mem s.ref).gpr ∧ t.pc = s.cfg.resetVector ∧ t.pending = false ∧
      t.csr = ⟨0, 0, 0, 0, 0, 0⟩ ∧ t.mirror = (State.powerOn s.cfg d s.mem s.ref).mirror ∧
      t.boot = (State.powerOn s.cfg d s.mem s.ref).boot ∧ t.cosim = .detached ∧ t.halted = false ∧
      t.haltReason = none

/-- Right after reset, whatever the draws: the fetch at RESET_VECTOR reads physical RESET_VECTOR directly, and QUERY
delivers nothing, an edge or not (70_reset_and_hazards.md R138). -/
def Obligations.EntryStateFetchesDirectly : Prop :=
  ∀ (c : Config) (d : ResetDraws) (m : Memory) (r : RefEngine), c.Legal →
    let s := State.powerOn c d m r
    let t := { s with busA := c.resetVector }
    (∃ v : Word, v.toNat = bytesValue s c.resetVector.toNat 4 ∧
      exec (.ifetch .b4) t = .next ((t.logged [BusEvent.memRead c.resetVector 4]).answer v)) ∧
    ∀ p, exec .query { s with pending := p } = .next ({ s with pending := p }.answer 0)

/-! ### Invariants -/

/-- State.reset meets the invariant, and so does an instance after reset with any draws, on canonical memory of existing
addresses and a reference engine that fits (the values reset leaves open are not rested on; c2 to c5). -/
def Obligations.ResetMeetsTheInvariant : Prop :=
  State.reset.Inv ∧
  ∀ (c : Config) (d : ResetDraws) (m : Memory) (r : RefEngine),
    (State.powerOn c d m r).MemFits → (State.powerOn c d m r).RefFits → r.gpr.length = c.nrGpr.count →
      (State.powerOn c d m r).Inv

/-- Every step keeps the invariant: register files of NR_GPR registers, canonical memories over the addresses that
exist, a halt record that agrees with itself, gpr[0] = 0 (10_state.md R20, R21, R33, R37; 20_memory.md R46). -/
def Obligations.StepKeepsTheInvariant : Prop :=
  ∀ s t : State, s.Inv → step s = .next t → t.Inv

/-- gpr[0] stays 0: no step, a reset and a snapshot load among them, makes it another value (10_state.md R21). -/
def Obligations.StepKeepsX0Zero : Prop :=
  ∀ s t : State, s.X0Zero → step s = .next t → t.X0Zero

/-! ### The snapshot -/

/-- A load of a saved snapshot is the exact inverse: registers, pc, CSRs and guest memory come back, and all the layout
does not hold stays as it is in the machine that loads (20_memory.md R60). -/
def Obligations.SnapshotLoadInvertsSave : Prop :=
  ∀ s u : State, s.Inv → u.cfg = s.cfg →
    loadSnapshot (snapshotOf s) u = .next { u with gpr := s.gpr, pc := s.pc, csr := s.csr, mem := s.mem }

/-- The snapshot's layout, byte by byte (20_memory.md R60); a load whose image has gpr[0] ≠ 0 is refused. -/
def Obligations.SnapshotHasTheStatedLayout : Prop :=
  ∀ s : State, s.FilesFit → s.cfg.Legal →
    let n := 4 * s.cfg.nrGpr.count
    let image := snapshotOf s
    image.length = n + 28 + s.cfg.pmemSize ∧
    (∀ i < s.cfg.nrGpr.count, ∀ k < 4, image[4 * i + k]? = some (byteOf (readGpr s.gpr i) k)) ∧
    (∀ k < 4, image[n + k]? = some (byteOf s.pc k) ∧
      image[n + 4 + k]? = some (byteOf s.csr.mstatus k) ∧ image[n + 8 + k]? = some (byteOf s.csr.mtvec k) ∧
      image[n + 12 + k]? = some (byteOf s.csr.mepc k) ∧ image[n + 16 + k]? = some (byteOf s.csr.mcause k) ∧
      image[n + 20 + k]? = some (byteOf s.csr.satp k) ∧ image[n + 24 + k]? = some (byteOf s.csr.mscratch k)) ∧
    (∀ k < s.cfg.pmemSize, image[n + 28 + k]? = some (s.byteAt (s.cfg.pmemBase.toNat + k))) ∧
    (readGpr s.gpr 0 ≠ 0 → ∀ u : State, u.cfg = s.cfg → loadSnapshot image u = .refused .x0Write)
end

