-- ==== Sys2Proof/Laws/Memory.lean ====
section
/-! SUPPORT. The laws of sparse maps and of the memories built on them: read after write, frames, and that every
operation keeps the canonical form. -/

namespace Sys2Proof.Machine

variable {w : Nat}

@[simp] theorem sparseGet_nil (k : Nat) : sparseGet ([] : Sparse w) k = 0#w := rfl

/-- A key below every listed key reads as 0. -/
theorem sparseGet_of_all_gt {m : Sparse w} {k : Nat} (h : ∀ c ∈ m, k < c.1) : sparseGet m k = 0#w := by
  induction m with
  | nil => rfl
  | cons c rest ih =>
    obtain ⟨a, b⟩ := c
    have ha : k < a := h (a, b) (by simp)
    rw [sparseGet, if_neg (by omega)]
    exact ih fun c hc => h c (by simp [hc])

theorem sparseGet_sparseSet_ne (m : Sparse w) {j k : Nat} (v : BitVec w) (h : j ≠ k) :
    sparseGet (sparseSet m k v) j = sparseGet m j := by
  induction m with
  | nil => by_cases hv : v = 0#w <;> simp [sparseSet, sparseGet, hv, h]
  | cons c rest ih =>
    obtain ⟨a, b⟩ := c
    by_cases h1 : k < a
    · by_cases hv : v = 0#w <;> simp [sparseSet, sparseGet, h1, hv, h]
    · by_cases h2 : k = a
      · subst h2
        by_cases hv : v = 0#w <;> simp [sparseSet, sparseGet, hv, h]
      · simp [sparseSet, sparseGet, h1, h2, ih]

theorem sparseGet_sparseSet_self {m : Sparse w} (hm : SparseWf m) (k : Nat) (v : BitVec w) :
    sparseGet (sparseSet m k v) k = v := by
  obtain ⟨hs, -⟩ := hm
  induction m with
  | nil => by_cases hv : v = 0#w <;> simp [sparseSet, sparseGet, hv]
  | cons c rest ih =>
    obtain ⟨a, b⟩ := c
    rw [List.pairwise_cons] at hs
    by_cases h1 : k < a
    · by_cases hv : v = 0#w
      · subst hv
        rw [sparseSet, if_pos h1, if_pos rfl, sparseGet, if_neg (by omega)]
        exact sparseGet_of_all_gt fun c hc => h1.trans (hs.1 c hc)
      · simp [sparseSet, sparseGet, h1, hv]
    · by_cases h2 : k = a
      · subst h2
        by_cases hv : v = 0#w
        · subst hv
          rw [sparseSet, if_neg h1, if_pos rfl, if_pos rfl]
          exact sparseGet_of_all_gt fun c hc => hs.1 c hc
        · simp [sparseSet, sparseGet, hv]
      · rw [sparseSet, if_neg h1, if_neg h2, sparseGet, if_neg h2]
        exact ih hs.2

/-- What a write lists: entries that were there, or the one written. -/
theorem mem_sparseSet {m : Sparse w} {k : Nat} {v : BitVec w} {c : Nat × BitVec w} (h : c ∈ sparseSet m k v) :
    c ∈ m ∨ (c = (k, v) ∧ v ≠ 0#w) := by
  induction m with
  | nil =>
    by_cases hv : v = 0#w
    · simp [sparseSet, hv] at h
    · rw [sparseSet, if_neg hv, List.mem_singleton] at h
      exact .inr ⟨h, hv⟩
  | cons e rest ih =>
    obtain ⟨a, b⟩ := e
    by_cases h1 : k < a
    · by_cases hv : v = 0#w
      · rw [sparseSet, if_pos h1, if_pos hv] at h
        exact .inl h
      · rw [sparseSet, if_pos h1, if_neg hv, List.mem_cons] at h
        exact h.elim (fun h => .inr ⟨h, hv⟩) .inl
    · by_cases h2 : k = a
      · by_cases hv : v = 0#w
        · rw [sparseSet, if_neg h1, if_pos h2, if_pos hv] at h
          exact .inl (List.mem_cons_of_mem _ h)
        · rw [sparseSet, if_neg h1, if_pos h2, if_neg hv, List.mem_cons] at h
          exact h.elim (fun h => .inr ⟨h, hv⟩) fun h => .inl (List.mem_cons_of_mem _ h)
      · rw [sparseSet, if_neg h1, if_neg h2, List.mem_cons] at h
        exact h.elim (fun h => .inl (h ▸ List.mem_cons_self))
          fun h => (ih h).imp_left (List.mem_cons_of_mem _)

theorem sparseSet_wf {m : Sparse w} (hm : SparseWf m) (k : Nat) (v : BitVec w) : SparseWf (sparseSet m k v) := by
  refine ⟨?_, fun c hc => (mem_sparseSet hc).elim (hm.2 c) fun h => by rw [h.1]; exact h.2⟩
  obtain ⟨hs, -⟩ := hm
  induction m with
  | nil => by_cases hv : v = 0#w <;> simp [sparseSet, hv]
  | cons e rest ih =>
    obtain ⟨a, b⟩ := e
    have hs' := List.pairwise_cons.mp hs
    by_cases h1 : k < a
    · by_cases hv : v = 0#w
      · rwa [sparseSet, if_pos h1, if_pos hv]
      · rw [sparseSet, if_pos h1, if_neg hv]
        refine List.pairwise_cons.mpr ⟨fun c hc => ?_, hs⟩
        rcases List.mem_cons.mp hc with rfl | hc
        · exact h1
        · exact h1.trans (hs'.1 c hc)
    · by_cases h2 : k = a
      · by_cases hv : v = 0#w
        · rw [sparseSet, if_neg h1, if_pos h2, if_pos hv]
          exact hs'.2
        · rw [sparseSet, if_neg h1, if_pos h2, if_neg hv]
          exact List.pairwise_cons.mpr ⟨fun c hc => h2 ▸ hs'.1 c hc, hs'.2⟩
      · rw [sparseSet, if_neg h1, if_neg h2]
        refine List.pairwise_cons.mpr ⟨fun c hc => ?_, ih hs'.2⟩
        rcases mem_sparseSet hc with hc | ⟨rfl, -⟩
        · exact hs'.1 c hc
        · show a < k
          omega

theorem sparseWf_nil : SparseWf ([] : Sparse w) := by simp [SparseWf]

theorem sparseOf_wf (bound : Nat) (l : Sparse w) : SparseWf (sparseOf bound l) := by
  induction l with
  | nil => exact sparseWf_nil
  | cons c rest ih => exact sparseSet_wf ih _ _

theorem sparseOf_keys {bound : Nat} (hb : 0 < bound) (l : Sparse w) : ∀ c ∈ sparseOf bound l, c.1 < bound := by
  induction l with
  | nil => simp [sparseOf]
  | cons c rest ih =>
    intro e he
    rcases mem_sparseSet he with he | ⟨rfl, -⟩
    · exact ih e he
    · exact Nat.mod_lt _ hb

/-- Two canonical maps that read the same everywhere are equal lists. -/
theorem sparse_ext {m n : Sparse w} (hm : SparseWf m) (hn : SparseWf n)
    (h : ∀ k, sparseGet m k = sparseGet n k) : m = n := by
  induction m generalizing n with
  | nil =>
    cases n with
    | nil => rfl
    | cons c rest =>
      obtain ⟨a, b⟩ := c
      have := h a
      rw [sparseGet_nil, sparseGet, if_pos rfl] at this
      exact absurd this.symm (hn.2 (a, b) (by simp))
  | cons c rest ih =>
    obtain ⟨a, b⟩ := c
    have hb : b ≠ 0#w := hm.2 (a, b) (by simp)
    have hm1 := List.pairwise_cons.mp hm.1
    have hmr : SparseWf rest := ⟨hm1.2, fun c hc => hm.2 c (by simp [hc])⟩
    cases n with
    | nil =>
      have := h a
      exact absurd (by simpa [sparseGet] using this) hb
    | cons d rest' =>
      obtain ⟨a', b'⟩ := d
      have hb' : b' ≠ 0#w := hn.2 (a', b') (by simp)
      have hn1 := List.pairwise_cons.mp hn.1
      have hnr : SparseWf rest' := ⟨hn1.2, fun c hc => hn.2 c (by simp [hc])⟩
      have haa : a = a' := by
        rcases Nat.lt_trichotomy a a' with hlt | heq | hgt
        · have := h a
          rw [sparseGet, if_pos rfl, sparseGet, if_neg (by omega),
            sparseGet_of_all_gt fun c hc => hlt.trans (hn1.1 c hc)] at this
          exact absurd this hb
        · exact heq
        · have := h a'
          rw [sparseGet, if_neg (by omega), sparseGet_of_all_gt fun c hc => hgt.trans (hm1.1 c hc),
            sparseGet, if_pos rfl] at this
          exact absurd this.symm hb'
      subst haa
      have hbb : b = b' := by simpa [sparseGet] using h a
      subst hbb
      congr 1
      refine ih hmr hnr fun k => ?_
      by_cases hk : k = a
      · subst hk
        rw [sparseGet_of_all_gt fun c hc => hm1.1 c hc, sparseGet_of_all_gt fun c hc => hn1.1 c hc]
      · have := h k
        rwa [sparseGet, if_neg hk, sparseGet, if_neg hk] at this

/-! ### Bytes upward from an address -/

@[simp] theorem length_readBytes (m : Memory) (a n : Nat) : (readBytes m a n).length = n := by
  induction n generalizing a with
  | zero => rfl
  | succ k ih => simp [readBytes, ih]

@[simp] theorem length_leBytes (n : Nat) (v : Word) : (leBytes n v).length = n := by
  induction n generalizing v with
  | zero => rfl
  | succ k ih => simp [leBytes, ih]

theorem getElem_readBytes (m : Memory) (a n k : Nat) (h : k < (readBytes m a n).length) :
    (readBytes m a n)[k] = sparseGet m (a + k) := by
  induction n generalizing a k with
  | zero => simp at h
  | succ n ih =>
    cases k with
    | zero => simp [readBytes]
    | succ k =>
      simp only [readBytes, List.getElem_cons_succ, ih]
      congr 1
      omega

theorem writeBytes_wf {m : Memory} (hm : Memory.wf m) (a : Nat) (bs : List Byte) : Memory.wf (writeBytes m a bs) := by
  induction bs generalizing m a with
  | nil => exact hm
  | cons b rest ih => exact ih (sparseSet_wf hm a b) (a + 1)

/-- What a store lists: cells that were there, or cells inside the stored range. -/
theorem mem_writeBytes {m : Memory} {a : Nat} {bs : List Byte} {c : Host.Cell} (h : c ∈ writeBytes m a bs) :
    c ∈ m ∨ (a ≤ c.1 ∧ c.1 < a + bs.length) := by
  induction bs generalizing m a with
  | nil => exact .inl h
  | cons b rest ih =>
    rcases ih h with h | h
    · rcases mem_sparseSet h with h | ⟨rfl, -⟩
      · exact .inl h
      · exact .inr ⟨Nat.le_refl _, by simp⟩
    · exact .inr ⟨by omega, by rw [List.length_cons]; omega⟩

/-- Every byte outside the stored range reads as before. -/
theorem sparseGet_writeBytes_outside (m : Memory) {a j : Nat} (bs : List Byte) (h : j < a ∨ a + bs.length ≤ j) :
    sparseGet (writeBytes m a bs) j = sparseGet m j := by
  induction bs generalizing m a with
  | nil => rfl
  | cons b rest ih =>
    rw [List.length_cons] at h
    rw [writeBytes, ih _ (by omega), sparseGet_sparseSet_ne _ _ (by omega)]

/-- Every stored byte reads back. -/
theorem sparseGet_writeBytes_inside {m : Memory} (hm : Memory.wf m) (a : Nat) (bs : List Byte) (k : Nat)
    (h : k < bs.length) : sparseGet (writeBytes m a bs) (a + k) = bs[k] := by
  induction bs generalizing m a k with
  | nil => simp at h
  | cons b rest ih =>
    cases k with
    | zero =>
      rw [writeBytes, sparseGet_writeBytes_outside _ _ (by omega)]
      exact sparseGet_sparseSet_self hm _ _
    | succ k =>
      have := ih (sparseSet_wf hm a b) (a + 1) k (by simpa using h)
      rw [writeBytes, show a + (k + 1) = a + 1 + k by omega, this]
      simp

theorem readBytes_writeBytes {m : Memory} (hm : Memory.wf m) (a : Nat) (bs : List Byte) :
    readBytes (writeBytes m a bs) a bs.length = bs := by
  refine List.ext_getElem (by simp) fun k h1 h2 => ?_
  rw [getElem_readBytes, sparseGet_writeBytes_inside hm a bs k h2]

/-! ### Bytes upward from a 32-bit address -/

@[simp] theorem length_readBytesWrap (m : Memory) (a : Word) (n : Nat) : (readBytesWrap m a n).length = n := by
  induction n generalizing a with
  | zero => rfl
  | succ k ih => simp [readBytesWrap, ih]

theorem getElem_readBytesWrap (m : Memory) (a : Word) (n k : Nat) (h : k < (readBytesWrap m a n).length) :
    (readBytesWrap m a n)[k] = sparseGet m (a + BitVec.ofNat 32 k).toNat := by
  induction n generalizing a k with
  | zero => simp at h
  | succ n ih =>
    cases k with
    | zero => simp [readBytesWrap]
    | succ k =>
      simp only [readBytesWrap, List.getElem_cons_succ, ih]
      congr 2
      rw [BitVec.add_assoc, BitVec.add_comm 1#32, ← BitVec.ofNat_add]

theorem writeBytesWrap_wf {m : Memory} (hm : Memory.wf m) (a : Word) (bs : List Byte) :
    Memory.wf (writeBytesWrap m a bs) := by
  induction bs generalizing m a with
  | nil => exact hm
  | cons b rest ih => exact ih (sparseSet_wf hm _ b) (a + 1#32)

theorem mem_writeBytesWrap {m : Memory} {a : Word} {bs : List Byte} {c : Host.Cell}
    (h : c ∈ writeBytesWrap m a bs) : c ∈ m ∨ c.1 < 2 ^ 32 := by
  induction bs generalizing m a with
  | nil => exact .inl h
  | cons b rest ih =>
    rcases ih h with h | h
    · rcases mem_sparseSet h with h | ⟨rfl, -⟩
      · exact .inl h
      · exact .inr a.isLt
    · exact .inr h

/-- A byte at none of the stored addresses reads as before. -/
theorem sparseGet_writeBytesWrap_outside (m : Memory) {a : Word} {j : Nat} (bs : List Byte)
    (h : ∀ k < bs.length, j ≠ (a + BitVec.ofNat 32 k).toNat) :
    sparseGet (writeBytesWrap m a bs) j = sparseGet m j := by
  induction bs generalizing m a with
  | nil => rfl
  | cons b rest ih =>
    rw [writeBytesWrap, ih, sparseGet_sparseSet_ne]
    · simpa using h 0 (by simp)
    · intro k hk
      have := h (k + 1) (by simpa using hk)
      rwa [BitVec.ofNat_add, BitVec.add_comm (BitVec.ofNat 32 k), ← BitVec.add_assoc] at this

/-- Every stored byte reads back, as long as the store does not go round the address space. -/
theorem sparseGet_writeBytesWrap_inside {m : Memory} (hm : Memory.wf m) (a : Word) (bs : List Byte) (k : Nat)
    (h : k < bs.length) (hl : bs.length ≤ 2 ^ 32) :
    sparseGet (writeBytesWrap m a bs) (a + BitVec.ofNat 32 k).toNat = bs[k] := by
  induction bs generalizing m a k with
  | nil => simp at h
  | cons b rest ih =>
    rw [List.length_cons] at h hl
    cases k with
    | zero =>
      rw [writeBytesWrap, sparseGet_writeBytesWrap_outside]
      · simpa using sparseGet_sparseSet_self hm a.toNat b
      · intro k hk heq
        have := congrArg (BitVec.ofNat 32) heq
        simp only [BitVec.ofNat_toNat, BitVec.setWidth_eq] at this
        have h2 : (a + 0#32) = a + (1#32 + BitVec.ofNat 32 k) := by rw [this, BitVec.add_assoc]
        have h3 : (0#32) = 1#32 + BitVec.ofNat 32 k := by
          have := congrArg (fun x => x - a) h2
          simpa [BitVec.add_comm a, BitVec.add_sub_cancel] using this
        have h4 := congrArg BitVec.toNat h3
        simp [BitVec.toNat_add] at h4
        omega
    | succ k =>
      have := ih (sparseSet_wf hm a.toNat b) (a + 1#32) k (by omega) (by omega)
      rw [writeBytesWrap, BitVec.ofNat_add, BitVec.add_comm (BitVec.ofNat 32 k), ← BitVec.add_assoc]
      simpa using this

theorem readBytesWrap_writeBytesWrap {m : Memory} (hm : Memory.wf m) (a : Word) (bs : List Byte)
    (hl : bs.length ≤ 2 ^ 32) : readBytesWrap (writeBytesWrap m a bs) a bs.length = bs := by
  refine List.ext_getElem (by simp) fun k h1 h2 => ?_
  rw [getElem_readBytesWrap, sparseGet_writeBytesWrap_inside hm a bs k h2 hl]

/-! ### Byte order -/

theorem toNat_leWord_cons (b : Byte) (bs : List Byte) (h : bs.length ≤ 3) :
    (leWord (b :: bs)).toNat = b.toNat + 256 * (leWord bs).toNat ∧ (leWord bs).toNat < 256 ^ bs.length := by
  have bound : ∀ l : List Byte, l.length ≤ 4 → (leWord l).toNat < 256 ^ l.length ∧
      ∀ b : Byte, l.length ≤ 3 → (leWord (b :: l)).toNat = b.toNat + 256 * (leWord l).toNat := by
    intro l
    induction l with
    | nil =>
      intro _
      refine ⟨by simp [leWord], fun b _ => ?_⟩
      simp [leWord]
      omega
    | cons c rest ih =>
      intro hl
      rw [List.length_cons] at hl
      obtain ⟨ih1, ih2⟩ := ih (by omega)
      have hc := ih2 c (by omega)
      have hlt : (leWord (c :: rest)).toNat < 256 ^ (c :: rest).length := by
        rw [hc, List.length_cons, Nat.pow_succ]
        have := c.isLt
        omega
      refine ⟨hlt, fun b hb => ?_⟩
      rw [List.length_cons] at hb
      have h3 : (leWord (c :: rest)).toNat < 2 ^ 24 := by
        refine lt_of_lt_of_le hlt ?_
        rw [List.length_cons, show (2 : Nat) ^ 24 = 256 ^ 3 by norm_num]
        exact Nat.pow_le_pow_right (by norm_num) (by omega)
      rw [leWord, BitVec.toNat_or, BitVec.toNat_shiftLeft, BitVec.toNat_setWidth]
      have hb' := b.isLt
      rw [Nat.mod_eq_of_lt (a := b.toNat) (by omega), Nat.shiftLeft_eq, Nat.mod_eq_of_lt (by omega)]
      rw [Nat.mul_comm, ← Nat.two_pow_add_eq_or_of_lt hb']
      omega
  have hb := bound bs (by omega)
  exact ⟨hb.2 b h, hb.1⟩

end Sys2Proof.Machine
end

