-- ==== Sys2Proof/Laws/Ops.lean ====
section
/-! SUPPORT. What each shared operation can do, once: later proofs cite these and do not unfold the operation. -/

namespace Sys2Proof.Machine

/-! ### Register files -/

@[simp] theorem length_fitRegs (n : Nat) (l : List Word) : (fitRegs n l).length = n := by
  simp [fitRegs]

theorem readGpr_fitRegs (n : Nat) (l : List Word) {i : Nat} (h : i < n) :
    readGpr (fitRegs n l) i = readGpr l i := by
  simp [readGpr, fitRegs, h]

@[simp] theorem length_writeGpr (l : List Word) (i : Nat) (v : Word) : (writeGpr l i v).length = l.length := by
  simp [writeGpr]

theorem readGpr_writeGpr_self {l : List Word} {i : Nat} (h : i < l.length) (v : Word) :
    readGpr (writeGpr l i v) i = v := by
  simp [readGpr, writeGpr, h]

theorem readGpr_writeGpr_ne (l : List Word) {i j : Nat} (h : j ≠ i) (v : Word) :
    readGpr (writeGpr l i v) j = readGpr l j := by
  simp [readGpr, writeGpr, Ne.symm h]

theorem nrGpr_pos (n : NrGpr) : 16 ≤ n.count := by
  cases n <;> decide

@[simp] theorem length_scratchImage (s : State) : (scratchImage s).gpr.length = s.gpr.length := by
  simp [scratchImage]

/-! ### Physical memory -/

/-- The executable range check is the range. -/
theorem inPmem_iff (c : Config) (pa : Word) (n : Nat) :
    inPmem c pa n = true ↔
      c.pmemBase.toNat ≤ pa.toNat ∧ pa.toNat + n ≤ c.pmemBase.toNat + c.pmemSize ∧ pa.toNat + n ≤ 2 ^ 32 := by
  rw [inPmem, pmemEnd, decide_eq_true_iff]
  omega

theorem inDevice_iff (c : Config) (pa : Word) (n : Nat) :
    inDevice c pa n = true ↔
      ∃ d ∈ c.devices, d.base ≤ pa.toNat ∧ pa.toNat + n ≤ d.base + d.size ∧ pa.toNat + n ≤ 2 ^ 32 := by
  simp [inDevice, windowEnd]

/-- MemRead answers from guest memory or, by a free draw, from a device, and only the trace and the draw counter move. -/
theorem memRead_ok {s u : State} {pa : Word} {n : Nat} {v : Word} (h : memRead s pa n = .ok (v, u)) :
    (inPmem s.cfg pa n = true ∧ v = leWord (readBytes s.mem pa.toNat n) ∧ u = s.logged [.memRead pa n]) ∨
    (inPmem s.cfg pa n = false ∧ inDevice s.cfg pa n = true ∧
      v = leWord (leBytes n (Config.freeWord s.draws)) ∧
      u = { s.logged [.memRead pa n] with draws := s.draws + 1 }) := by
  unfold memRead at h
  split at h
  · next hp =>
    simp only [Except.ok.injEq, Prod.mk.injEq] at h
    exact .inl ⟨hp, h.1.symm, h.2.symm⟩
  · next hp =>
    split at h
    · next hd =>
      simp only [Except.ok.injEq, Prod.mk.injEq] at h
      exact .inr ⟨by simpa using hp, hd, h.1.symm, h.2.symm⟩
    · cases h

theorem memRead_error {s : State} {pa : Word} {n : Nat} {f : Fault} (h : memRead s pa n = .error f) :
    f = .physOutOfRange ∧ inPmem s.cfg pa n = false ∧ inDevice s.cfg pa n = false := by
  unfold memRead at h
  split at h
  · cases h
  · split at h
    · cases h
    · cases h
      exact ⟨rfl, by simpa using ‹¬ inPmem s.cfg pa n = true›, by simpa using ‹¬ inDevice s.cfg pa n = true›⟩

/-- MemWrite stores in guest memory, or leaves it to a device. -/
theorem memWrite_ok {s u : State} {pa : Word} {n : Nat} {v : Word} (h : memWrite s pa n v = .ok u) :
    (inPmem s.cfg pa n = true ∧
      u = { s.logged [.memWrite pa (leBytes n v)] with mem := writeBytes s.mem pa.toNat (leBytes n v) }) ∨
    (inPmem s.cfg pa n = false ∧ inDevice s.cfg pa n = true ∧ u = s.logged [.memWrite pa (leBytes n v)]) := by
  unfold memWrite at h
  split at h
  · next hp =>
    cases h
    exact .inl ⟨hp, rfl⟩
  · next hp =>
    split at h
    · next hd =>
      cases h
      exact .inr ⟨by simpa using hp, hd, rfl⟩
    · cases h

theorem memWrite_error {s : State} {pa : Word} {n : Nat} {v : Word} {f : Fault}
    (h : memWrite s pa n v = .error f) :
    f = .physOutOfRange ∧ inPmem s.cfg pa n = false ∧ inDevice s.cfg pa n = false := by
  unfold memWrite at h
  split at h
  · cases h
  · split at h
    · cases h
    · cases h
      exact ⟨rfl, by simpa using ‹¬ inPmem s.cfg pa n = true›, by simpa using ‹¬ inDevice s.cfg pa n = true›⟩

/-! ### The reference engine -/

@[simp] theorem fitEngine_gpr_length (c : Config) (e : RefEngine) : (fitEngine c e).gpr.length = c.nrGpr.count := by
  simp [fitEngine]

/-- A drawn engine is canonical. -/
theorem fitEngine_wf (c : Config) (e : RefEngine) :
    (Memory.wf (fitEngine c e).mem ∧ ∀ k ∈ (fitEngine c e).mem, k.1 < 2 ^ 32) ∧
      (SparseWf (fitEngine c e).csrs ∧ ∀ k ∈ (fitEngine c e).csrs, k.1 < 2 ^ 12) :=
  ⟨⟨sparseOf_wf _ _, sparseOf_keys (by norm_num) _⟩, ⟨sparseOf_wf _ _, sparseOf_keys (by norm_num) _⟩⟩

theorem length_wordsBytes (ws : List Word) : (wordsBytes ws).length = 4 * ws.length := by
  induction ws with
  | nil => rfl
  | cons w rest ih => simp [wordsBytes] at *; omega

/-- The image of a register file of NR_GPR registers has the size the transfer asks for. -/
theorem imageSize_fit (g : RegImage) : imageSize g = 4 * g.gpr.length + 4 := by
  simp [imageSize, length_wordsBytes, imageWords]
  omega

@[simp] theorem length_bootstrapBytes : bootstrapBytes.length = 24 := by decide

/-- A foreign call has its effect, or is cut short: never anything else. -/
theorem foreignCall_cases {α : Type} (e : BusEvent) (full short : State → α) (s : State) :
    (s.callFates.headD .complete = .complete ∧
      foreignCall e full short s = full { s.logged [e] with callFates := s.callFates.tail }) ∨
    (s.callFates.head? = some .cutShort ∧
      foreignCall e full short s = short { s.logged [e] with callFates := s.callFates.tail }) := by
  unfold foreignCall
  cases h : s.callFates with
  | nil => exact .inl ⟨rfl, rfl⟩
  | cons f rest => cases f <;> simp

/-- With complete calls scheduled, a call has its effect and the calls after it are complete too. -/
theorem foreignCall_complete {α : Type} {s : State} (h : ∀ f ∈ s.callFates, f = .complete) (e : BusEvent)
    (full short : State → α) :
    foreignCall e full short s = full { s.logged [e] with callFates := s.callFates.tail } := by
  rcases foreignCall_cases e full short s with ⟨-, h'⟩ | ⟨h', -⟩
  · exact h'
  · have := h _ (List.mem_of_mem_head? h')
    cases this

/-- With its fate cut short, a call leaves what is then undefined. -/
theorem foreignCall_cutShort {α : Type} {s : State} (h : s.callFates.head? = some .cutShort) (e : BusEvent)
    (full short : State → α) :
    foreignCall e full short s = short { s.logged [e] with callFates := s.callFates.tail } := by
  rcases foreignCall_cases e full short s with ⟨h', -⟩ | ⟨-, h'⟩
  · rw [List.headD_eq_head?_getD, h] at h'
    cases h'
  · exact h'

/-- What a foreign call may leave different: the reference engine, the mirror, the fates, the draw counter, the trace. -/
def SameButReference (s t : State) : Prop :=
  { t with
    ref := s.ref, mirror := s.mirror, callFates := s.callFates, draws := s.draws, trace := s.trace } = s

theorem SameButReference.refl (s : State) : SameButReference s s := rfl

theorem SameButReference.trans {s t u : State} (h : SameButReference s t) (k : SameButReference t u) :
    SameButReference s u := by
  unfold SameButReference at *
  rw [← h, ← k]

theorem csrwEffect_same (c : BitVec 12) (r : BitVec 5) (s : State) : SameButReference s (csrwEffect c r s) := by
  unfold csrwEffect
  split <;> rfl

theorem refRvStep_same (s : State) : SameButReference s (refRvStep s) := by
  unfold refRvStep
  split
  · exact csrwEffect_same _ _ _
  · rfl

theorem refRvRun_same (n : Nat) (s : State) : SameButReference s (refRvRun n s) := by
  induction n generalizing s with
  | zero => rfl
  | succ k ih => exact (refRvStep_same s).trans (ih _)

theorem refExecEffect_same (n : Word) (s : State) : SameButReference s (refExecEffect n s) := by
  unfold refExecEffect
  split
  · rfl
  · exact refRvRun_same _ _

theorem refExec_same (n : Word) (s : State) : SameButReference s (refExec n s) := by
  unfold refExec
  rcases foreignCall_cases (.refExec n) (refExecEffect n) State.drawEngine s with ⟨-, h⟩ | ⟨-, h⟩ <;> rw [h]
  · exact SameButReference.trans (t := { s.logged [.refExec n] with callFates := s.callFates.tail }) rfl
      (refExecEffect_same _ _)
  · rfl

theorem refMemcpyTo_same {a : Word} {bs : List Byte} {n : Nat} {s t : State} (h : refMemcpyTo a bs n s = .ok t) :
    SameButReference s t := by
  unfold refMemcpyTo at h
  split at h
  · cases h
    rcases foreignCall_cases (.refMemcpy a n bs .toReference)
      (fun t => { t with ref := { t.ref with mem := writeBytesWrap t.ref.mem a bs } })
      State.drawEngine s with ⟨-, h⟩ | ⟨-, h⟩ <;> rw [h] <;> rfl
  · cases h

/-- A copy from reference memory: the exact bytes and the reference as it was, or, cut short, free bytes and a free
draw of the reference; never anything else. -/
theorem refMemcpyFrom_ok {a : Word} {n m : Nat} {s t : State} {bs : List Byte}
    (h : refMemcpyFrom a n m s = .ok (bs, t)) :
    m = n ∧ bs.length = n ∧ SameButReference s t ∧
      ((s.callFates.headD .complete = .complete ∧ bs = readBytesWrap s.ref.mem a n ∧ t.ref = s.ref) ∨
       (s.callFates.head? = some .cutShort ∧ bs = (List.range n).map (Config.freeByte (s.draws + 1)) ∧
         t.ref = fitEngine s.cfg (Config.freeEngine s.draws))) := by
  unfold refMemcpyFrom at h
  split at h
  · next hm =>
    injection h with h
    rcases foreignCall_cases (.refMemcpy a n (readBytesWrap s.ref.mem a n) .fromReference)
      (fun t => (readBytesWrap s.ref.mem a n, t)) (fun t => t.drawEngine.drawBytes n) s with ⟨hf, h'⟩ | ⟨hf, h'⟩
    all_goals
      rw [h'] at h
      injection h with h1 h2
      subst h1 h2
    · exact ⟨hm, by simp, rfl, .inl ⟨hf, rfl, rfl⟩⟩
    · exact ⟨hm, by simp, rfl, .inr ⟨hf, rfl, rfl⟩⟩
  · cases h

theorem refRegcpyTo_same {g : RegImage} {s t : State} (h : refRegcpyTo g s = .ok t) : SameButReference s t := by
  unfold refRegcpyTo at h
  split at h
  · cases h
    rcases foreignCall_cases (.refRegcpy g .toReference)
      (fun t => { t with ref := { t.ref with gpr := g.gpr, pc := g.pc } })
      State.drawEngine s with ⟨-, h⟩ | ⟨-, h⟩ <;> rw [h] <;> rfl
  · cases h

theorem refRegcpyFrom_same {s t : State} (h : refRegcpyFrom s = .ok t) : SameButReference s t := by
  unfold refRegcpyFrom at h
  dsimp only at h
  split at h
  · cases h
    rcases foreignCall_cases (.refRegcpy ⟨s.ref.gpr, s.ref.pc⟩ .fromReference)
      (fun t => { t with mirror := ⟨s.ref.gpr, s.ref.pc⟩ })
      (fun t => t.drawEngine.drawMirror) s with ⟨-, h⟩ | ⟨-, h⟩ <;> rw [h] <;> rfl
  · cases h

/-- The reference engine fits: NR_GPR registers, canonical memory and CSR map. -/
def EngineFits (c : Config) (e : RefEngine) : Prop :=
  e.gpr.length = c.nrGpr.count ∧ (Memory.wf e.mem ∧ ∀ k ∈ e.mem, k.1 < 2 ^ 32) ∧
    (SparseWf e.csrs ∧ ∀ k ∈ e.csrs, k.1 < 2 ^ 12)

theorem fitEngine_fits (c : Config) (e : RefEngine) : EngineFits c (fitEngine c e) :=
  ⟨fitEngine_gpr_length c e, fitEngine_wf c e⟩

theorem EngineFits.store {c : Config} {e : RefEngine} (h : EngineFits c e) (a : Word) (bs : List Byte) :
    EngineFits c { e with mem := writeBytesWrap e.mem a bs } :=
  ⟨h.1, ⟨writeBytesWrap_wf h.2.1.1 a bs, fun k hk => (mem_writeBytesWrap hk).elim (h.2.1.2 k) id⟩, h.2.2⟩

theorem EngineFits.csr {c : Config} {e : RefEngine} (h : EngineFits c e) (n : BitVec 12) (v pc : Word) :
    EngineFits c { e with csrs := sparseSet e.csrs n.toNat v, pc := pc } :=
  ⟨h.1, h.2.1, ⟨sparseSet_wf h.2.2.1 _ _, fun k hk => by
    rcases mem_sparseSet hk with hk | ⟨rfl, -⟩
    · exact h.2.2.2 k hk
    · exact n.isLt⟩⟩

theorem csrwEffect_fits {s : State} (h : EngineFits s.cfg s.ref) (c : BitVec 12) (r : BitVec 5) :
    EngineFits s.cfg (csrwEffect c r s).ref := by
  unfold csrwEffect
  split
  · exact h.csr _ _ _
  · exact fitEngine_fits _ _

theorem refRvStep_fits {s : State} (h : EngineFits s.cfg s.ref) : EngineFits s.cfg (refRvStep s).ref := by
  unfold refRvStep
  split
  · exact csrwEffect_fits h _ _
  · exact fitEngine_fits _ _

theorem SameButReference.cfg_eq {s t : State} (h : SameButReference s t) : t.cfg = s.cfg := by
  have := congrArg State.cfg (show _ = s from h)
  exact this

theorem refRvRun_fits (n : Nat) {s : State} (h : EngineFits s.cfg s.ref) :
    EngineFits s.cfg (refRvRun n s).ref := by
  induction n generalizing s with
  | zero => exact h
  | succ k ih =>
    have hc := (refRvStep_same s).cfg_eq
    have := @ih (refRvStep s) (by rw [hc]; exact refRvStep_fits h)
    rwa [hc] at this

theorem refExecEffect_fits (n : Word) {s : State} (h : EngineFits s.cfg s.ref) :
    EngineFits s.cfg (refExecEffect n s).ref := by
  unfold refExecEffect
  split
  · exact fitEngine_fits _ _
  · exact refRvRun_fits _ h

theorem refExec_fits (n : Word) {s : State} (h : EngineFits s.cfg s.ref) : EngineFits s.cfg (refExec n s).ref := by
  unfold refExec
  rcases foreignCall_cases (.refExec n) (refExecEffect n) State.drawEngine s with ⟨-, h'⟩ | ⟨-, h'⟩ <;> rw [h']
  · exact refExecEffect_fits n (s := { s.logged [.refExec n] with callFates := s.callFates.tail }) h
  · exact fitEngine_fits _ _

theorem refMemcpyTo_fits {a : Word} {bs : List Byte} {n : Nat} {s t : State} (hs : EngineFits s.cfg s.ref)
    (h : refMemcpyTo a bs n s = .ok t) : EngineFits s.cfg t.ref := by
  unfold refMemcpyTo at h
  split at h
  · cases h
    rcases foreignCall_cases (.refMemcpy a n bs .toReference)
      (fun t => { t with ref := { t.ref with mem := writeBytesWrap t.ref.mem a bs } })
      State.drawEngine s with ⟨-, h⟩ | ⟨-, h⟩ <;> rw [h]
    · exact hs.store a bs
    · exact fitEngine_fits _ _
  · cases h

theorem refMemcpyFrom_fits {a : Word} {n m : Nat} {s t : State} {bs : List Byte} (hs : EngineFits s.cfg s.ref)
    (h : refMemcpyFrom a n m s = .ok (bs, t)) : EngineFits s.cfg t.ref := by
  obtain ⟨-, -, -, ⟨-, -, h⟩ | ⟨-, -, h⟩⟩ := refMemcpyFrom_ok h <;> rw [h]
  · exact hs
  · exact fitEngine_fits _ _

/-- A register copy to the reference: its size was right, so the engine's file has NR_GPR registers after it. -/
theorem refRegcpyTo_fits {g : RegImage} {s t : State} (hs : EngineFits s.cfg s.ref)
    (h : refRegcpyTo g s = .ok t) : EngineFits s.cfg t.ref := by
  unfold refRegcpyTo at h
  split at h
  · next hg =>
    rw [imageSize_fit] at hg
    cases h
    rcases foreignCall_cases (.refRegcpy g .toReference)
      (fun t => { t with ref := { t.ref with gpr := g.gpr, pc := g.pc } })
      State.drawEngine s with ⟨-, h⟩ | ⟨-, h⟩ <;> rw [h]
    · exact ⟨by show g.gpr.length = _; omega, hs.2⟩
    · exact fitEngine_fits _ _
  · cases h

/-- The mirror's refresh: the engine fits after it, and so does the mirror. -/
theorem refRegcpyFrom_fits {s t : State} (hs : EngineFits s.cfg s.ref) (h : refRegcpyFrom s = .ok t) :
    EngineFits s.cfg t.ref ∧ t.mirror.gpr.length = s.cfg.nrGpr.count := by
  unfold refRegcpyFrom at h
  dsimp only at h
  split at h
  · cases h
    rcases foreignCall_cases (.refRegcpy ⟨s.ref.gpr, s.ref.pc⟩ .fromReference)
      (fun t => { t with mirror := ⟨s.ref.gpr, s.ref.pc⟩ })
      (fun t => t.drawEngine.drawMirror) s with ⟨-, h⟩ | ⟨-, h⟩ <;> rw [h]
    · exact ⟨hs, hs.1⟩
    · exact ⟨fitEngine_fits _ _, length_fitRegs _ _⟩
  · cases h

theorem refMemcpyTo_isOk {a : Word} {bs : List Byte} {n : Nat} (s : State) (h : bs.length = n) :
    ∃ t, refMemcpyTo a bs n s = .ok t := by
  unfold refMemcpyTo
  rw [if_pos h]
  exact ⟨_, rfl⟩

theorem refRegcpyTo_isOk {g : RegImage} {s : State} (h : g.gpr.length = s.cfg.nrGpr.count) :
    ∃ t, refRegcpyTo g s = .ok t := by
  unfold refRegcpyTo
  rw [if_pos (by rw [imageSize_fit, h])]
  exact ⟨_, rfl⟩

theorem refRegcpyFrom_isOk {s : State} (h : s.ref.gpr.length = s.cfg.nrGpr.count) :
    ∃ t, refRegcpyFrom s = .ok t := by
  unfold refRegcpyFrom
  dsimp only
  rw [if_pos (by rw [imageSize_fit, h])]
  exact ⟨_, rfl⟩

/-- The foreign calls of ATTACH go through whenever the register files have their size, and what they leave different is
the reference's side alone. -/
theorem attachCalls_ok {s : State} (hg : s.gpr.length = s.cfg.nrGpr.count) (he : EngineFits s.cfg s.ref) :
    ∃ t, attachCalls s = .ok t ∧ SameButReference s t ∧ EngineFits s.cfg t.ref ∧
      t.mirror.gpr.length = s.cfg.nrGpr.count := by
  obtain ⟨t1, h1⟩ := refMemcpyTo_isOk (a := s.cfg.resetVector) s length_bootstrapBytes
  have s1 := refMemcpyTo_same h1
  have f1 := refMemcpyTo_fits he h1
  obtain ⟨t2, h2⟩ := refRegcpyTo_isOk (g := scratchImage s) (s := t1) (by rw [length_scratchImage, s1.cfg_eq, hg])
  have s2 := s1.trans (refRegcpyTo_same h2)
  have f2 := refRegcpyTo_fits (by rw [s1.cfg_eq]; exact f1) h2
  rw [s1.cfg_eq] at f2
  have s3 := s2.trans (refExec_same 6 t2)
  have f3 := refExec_fits 6 (s := t2) (by rw [s2.cfg_eq]; exact f2)
  rw [s2.cfg_eq] at f3
  obtain ⟨t4, h4⟩ := refRegcpyTo_isOk (g := s.liveImage) (s := refExec 6 t2) (by rw [s3.cfg_eq]; exact hg)
  have s4 := s3.trans (refRegcpyTo_same h4)
  have f4 := refRegcpyTo_fits (by rw [s3.cfg_eq]; exact f3) h4
  rw [s3.cfg_eq] at f4
  obtain ⟨t5, h5⟩ := refMemcpyTo_isOk (a := s.cfg.resetVector) (t4.logged [.pmemBytes s.cfg.resetVector 24])
    (length_readBytes s.mem s.cfg.resetVector.toNat 24)
  have s5 := s4.trans (SameButReference.trans (t := t4.logged [.pmemBytes s.cfg.resetVector 24]) rfl
    (refMemcpyTo_same h5))
  have f5 := refMemcpyTo_fits (s := t4.logged [.pmemBytes s.cfg.resetVector 24])
    (by show EngineFits t4.cfg t4.ref; rw [s4.cfg_eq]; exact f4) h5
  replace f5 : EngineFits s.cfg t5.ref := by rw [← s4.cfg_eq]; exact f5
  obtain ⟨t6, h6⟩ := refRegcpyFrom_isOk (s := t5) (by rw [s5.cfg_eq]; exact f5.1)
  have s6 := s5.trans (refRegcpyFrom_same h6)
  have f6 := refRegcpyFrom_fits (by rw [s5.cfg_eq]; exact f5) h6
  rw [s5.cfg_eq] at f6
  refine ⟨t6, ?_, s6, f6⟩
  unfold attachCalls
  simp only [h1, bind, Except.bind, h2, h4]
  exact (by rw [pmemBytes, h5]; exact h6)

/-- A STEP's foreign calls go through in the same way. -/
theorem stepCalls_ok {s : State} (n : Word) (he : EngineFits s.cfg s.ref) :
    ∃ t, refRegcpyFrom (refExec n s) = .ok t ∧ SameButReference s t ∧ EngineFits s.cfg t.ref ∧
      t.mirror.gpr.length = s.cfg.nrGpr.count := by
  have s1 := refExec_same n s
  have f1 := refExec_fits n he
  obtain ⟨t, h⟩ := refRegcpyFrom_isOk (s := refExec n s) (by rw [s1.cfg_eq]; exact f1.1)
  have f2 := refRegcpyFrom_fits (by rw [s1.cfg_eq]; exact f1) h
  rw [s1.cfg_eq] at f2
  exact ⟨t, h, s1.trans (refRegcpyFrom_same h), f2⟩

/-! ### The comparator -/

theorem mem_mismatchesOf (s : State) (p : Word) (r : Mismatch) :
    r ∈ mismatchesOf s p ↔
      (∃ i < s.cfg.nrGpr.count, gprMismatch s p i = some r) ∨ r ∈ pcMismatch s p := by
  simp [mismatchesOf]

end Sys2Proof.Machine
end

