-- ==== Sys2Proof/Laws/Access.lean ====
section
/-! SUPPORT. The readings of Safety.lean as numbers, tied to the operations: ranges, byte values, PTE addresses, fields. -/

namespace Sys2Proof.Machine

theorem bytes_le_four (len : AccessLen) : len.bytes ≤ 4 := by
  cases len <;> decide

theorem inPmem_iff_inGuestMemory (c : Config) (pa : Word) (n : Nat) :
    inPmem c pa n = true ↔ InGuestMemory c pa.toNat n := inPmem_iff c pa n

theorem inDevice_iff_inDeviceWindow (c : Config) (pa : Word) (n : Nat) :
    inDevice c pa n = true ↔ InDeviceWindow c pa.toNat n := inDevice_iff c pa n

/-- MODE is the top bit (10_state.md R31). -/
theorem translating_eq (s : State) : translating s = decide (2 ^ 31 ≤ s.csr.satp.toNat) := by
  rw [translating, satpMode]
  generalize s.csr.satp = v
  rw [← BitVec.msb_eq_getLsbD_last v |>.trans rfl, BitVec.msb_eq_decide]

theorem sum_range_bytes (f : Nat → Nat) (n : Nat) :
    ((List.range (n + 1)).map fun k => f k * 256 ^ k).sum =
      f 0 + 256 * ((List.range n).map fun k => f (k + 1) * 256 ^ k).sum := by
  rw [List.range_succ_eq_map, List.map_cons, List.sum_cons, List.map_map, ← List.sum_map_mul_left]
  simp only [Nat.pow_zero, Nat.mul_one, Function.comp_def, Nat.succ_eq_add_one, Nat.pow_succ]
  congr 2
  apply List.map_congr_left
  intro k _
  ring

/-- Up to four bytes of memory, assembled, are the number they spell (20_memory.md R49). -/
theorem toNat_leWord_readBytes (s : State) (a n : Nat) (h : n ≤ 4) :
    (leWord (readBytes s.mem a n)).toNat = bytesValue s a n := by
  induction n generalizing a with
  | zero => rfl
  | succ k ih =>
    rw [readBytes, (toNat_leWord_cons _ _ (by simp; omega)).1, ih _ (by omega), bytesValue, bytesValue,
      sum_range_bytes fun k => (s.byteAt (a + k)).toNat]
    simp [State.byteAt, Nat.add_assoc, Nat.add_comm 1]

/-- The bytes a word is stored as are its bytes (20_memory.md R49). -/
theorem getElem_leBytes (v : Word) (n k : Nat) (h : k < (leBytes n v).length) : (leBytes n v)[k] = byteOf v k := by
  induction n generalizing v k with
  | zero => simp at h
  | succ n ih =>
    cases k with
    | zero => apply BitVec.eq_of_toNat_eq; simp [leBytes, byteOf]
    | succ k =>
      simp only [leBytes, List.getElem_cons_succ, ih, byteOf]
      rw [BitVec.toNat_ushiftRight, Nat.shiftRight_eq_div_pow, Nat.div_div_eq_div_mul,
        show 2 ^ 8 * 256 ^ k = 256 ^ (k + 1) by rw [Nat.pow_succ]; ring]

/-- Stored and assembled again, a word's low bytes are what is left of it. -/
theorem toNat_leWord_leBytes (n : Nat) (v : Word) (hn : n ≤ 4) :
    (leWord (leBytes n v)).toNat = v.toNat % 2 ^ (8 * n) := by
  induction n generalizing v with
  | zero => simp [leBytes, leWord, Nat.mod_one]
  | succ k ih =>
    rw [leBytes, (toNat_leWord_cons _ _ (by simp; omega)).1, ih _ (by omega), BitVec.toNat_ushiftRight,
      Nat.shiftRight_eq_div_pow, BitVec.toNat_setWidth, show 8 * (k + 1) = 8 + 8 * k by ring, Nat.pow_add, Nat.mod_mul]

/-- A load that guest memory serves: the trace and the answer, nothing else. -/
theorem loadVirtual_inPmem {s : State} {len : AccessLen} {pa : Word} (h : (physAddr s s.busA len).result = .ok pa)
    (hi : inPmem s.cfg pa len.bytes = true) :
    loadVirtual len s =
      .next ((s.logged ((physAddr s s.busA len).reads.map .pteRead ++ [.memRead pa len.bytes])).answer
        (leWord (readBytes s.mem pa.toNat len.bytes))) := by
  unfold loadVirtual
  simp only [h, memRead]
  rw [show inPmem (s.logged ((physAddr s s.busA len).reads.map .pteRead)).cfg pa len.bytes = true from hi]
  simp [State.logged]

/-- Whether a PteRead finds its word is a matter of the parameters alone. -/
theorem pteRead_eq_none_iff (s : State) (pa : Word) : pteRead s pa = none ↔ inPmem s.cfg pa 4 = false := by
  unfold pteRead
  split <;> simp_all

/-- A walk reads nothing but the parameters, satp and the PTEs of its trace (40_translation.md R91). -/
theorem walk_congr {s t : State} {vaddr : Word} {len : AccessLen} (hc : t.cfg = s.cfg)
    (hs : t.csr.satp = s.csr.satp) (h : ∀ a ∈ (walk s vaddr len).reads, pteRead t a = pteRead s a) :
    walk t vaddr len = walk s vaddr len := by
  have none_of (a : Word) (ha : pteRead s a = none) : pteRead t a = none := by
    rwa [pteRead_eq_none_iff, hc, ← pteRead_eq_none_iff]
  unfold walk at h ⊢
  rw [hs]
  split
  · rfl
  next hx =>
  rw [if_neg hx] at h
  dsimp only at h ⊢
  generalize pteAddr (satpPpn s.csr.satp) (vpn1 vaddr) = a1 at *
  cases h1 : pteRead s a1 with
  | none => rw [none_of a1 h1]
  | some pte1 =>
    simp only [h1] at h
    have e1 : pteRead t a1 = some pte1 := by
      rw [← h1]
      apply h
      unfold walkLevel2
      dsimp only
      repeat' split
      all_goals simp
    rw [e1]
    dsimp only
    split
    · rfl
    next hv =>
    split
    · rfl
    next hl =>
    rw [if_neg hv, if_neg hl] at h
    unfold walkLevel2 at h ⊢
    dsimp only at h ⊢
    generalize pteAddr (ptePpn pte1) (vpn0 vaddr) = a2 at *
    cases h2 : pteRead s a2 with
    | none => rw [none_of a2 h2]
    | some pte2 =>
      simp only [h2] at h
      have e2 : pteRead t a2 = some pte2 := by
        rw [← h2]
        apply h
        repeat' split
        all_goals simp
      rw [e2]

/-- So does the address of an access (40_translation.md R92). -/
theorem physAddr_congr {s t : State} {vaddr : Word} {len : AccessLen} (hc : t.cfg = s.cfg)
    (hs : t.csr.satp = s.csr.satp) (h : ∀ a ∈ (physAddr s vaddr len).reads, pteRead t a = pteRead s a) :
    physAddr t vaddr len = physAddr s vaddr len := by
  have ht : translating t = translating s := by rw [translating, translating, hs]
  unfold physAddr at h ⊢
  rw [ht]
  split
  · next hx =>
    rw [if_pos hx] at h
    rw [walk_congr hc hs fun a ha => h a (by revert ha; rcases walk s vaddr len with ⟨_ | _, _⟩ <;> exact id)]
  · rfl

/-- A store that hits no byte of a PTE leaves its PteRead as it was. -/
theorem pteRead_writeBytes {s t : State} {pa a : Word} {bs : List Byte} (hc : t.cfg = s.cfg)
    (hm : t.mem = writeBytes s.mem pa.toNat bs) (h : a.toNat + 4 ≤ pa.toNat ∨ pa.toNat + bs.length ≤ a.toNat) :
    pteRead t a = pteRead s a := by
  have hb : readBytes t.mem a.toNat 4 = readBytes s.mem a.toNat 4 := by
    apply List.ext_getElem (by simp)
    intro k hk hk'
    rw [length_readBytes] at hk
    rw [getElem_readBytes, getElem_readBytes, hm, sparseGet_writeBytes_outside _ _ (by omega)]
  rw [pteRead, pteRead, hc, hb]

/-- A word stored as four bytes reads back whole. -/
theorem leWord_leBytes_four (v : Word) : leWord (leBytes 4 v) = v := by
  apply BitVec.eq_of_toNat_eq
  rw [toNat_leWord_leBytes 4 v (by norm_num)]
  exact Nat.mod_eq_of_lt v.isLt

theorem pteAddr_root (satp vaddr : Word) : pteAddr (satpPpn satp) (vpn1 vaddr) = level1Addr satp vaddr := by
  apply BitVec.eq_of_toNat_eq
  have := satp.isLt
  have := vaddr.isLt
  simp [pteAddr, satpPpn, vpn1, level1Addr, BitVec.toNat_add, BitVec.toNat_shiftLeft, Nat.shiftLeft_eq,
    Nat.shiftRight_eq_div_pow]
  omega

theorem pteAddr_table (pte vaddr : Word) : pteAddr (ptePpn pte) (vpn0 vaddr) = level2Addr pte vaddr := by
  apply BitVec.eq_of_toNat_eq
  have := pte.isLt
  have := vaddr.isLt
  simp [pteAddr, ptePpn, vpn0, level2Addr, BitVec.toNat_add, BitVec.toNat_shiftLeft, Nat.shiftLeft_eq,
    Nat.shiftRight_eq_div_pow]
  omega

theorem crossPage_iff (vaddr : Word) (len : AccessLen) :
    4096 ≤ (pageOffset vaddr).toNat + len.bytes - 1 ↔ 4096 < vaddr.toNat % 4096 + len.bytes := by
  rw [show (pageOffset vaddr).toNat = vaddr.toNat % 4096 by simp [pageOffset]]
  omega

theorem ptePpn0_eq_zero_iff (pte : Word) : ptePpn0 pte = 0 ↔ pte.toNat / 2 ^ 10 % 2 ^ 10 = 0 := by
  rw [← BitVec.toNat_inj]
  simp [ptePpn0, Nat.shiftRight_eq_div_pow]

theorem toNat_superpageAddr (pte vaddr : Word) :
    (superpageAddr pte vaddr).toNat = (pte.toNat / 2 ^ 20 * 2 ^ 22 + vaddr.toNat % 2 ^ 22) % 2 ^ 32 := by
  have h : superpageAddr pte vaddr = BitVec.ofNat 32 (pte.toNat / 2 ^ 20 * 2 ^ 22 + vaddr.toNat % 2 ^ 22) := by
    apply BitVec.eq_of_getLsbD_eq
    intro k hk
    rw [BitVec.getLsbD_ofNat]
    simp only [hk, decide_true, Bool.true_and]
    rw [Nat.mul_comm, Nat.testBit_two_pow_mul_add _ (Nat.mod_lt _ (by norm_num))]
    simp only [superpageAddr, ptePpn1, vpn0, pageOffset, Nat.testBit_mod_two_pow, Nat.testBit_div_two_pow,
      BitVec.testBit_toNat]
    interval_cases k <;> simp
  simp [h]

theorem toNat_pageAddr (pte vaddr : Word) :
    (pageAddr pte vaddr).toNat = (pte.toNat / 2 ^ 10 * 4096 + vaddr.toNat % 4096) % 2 ^ 32 := by
  have h : pageAddr pte vaddr = BitVec.ofNat 32 (pte.toNat / 2 ^ 10 * 4096 + vaddr.toNat % 2 ^ 12) := by
    apply BitVec.eq_of_getLsbD_eq
    intro k hk
    rw [BitVec.getLsbD_ofNat]
    simp only [hk, decide_true, Bool.true_and]
    rw [Nat.mul_comm, Nat.testBit_two_pow_mul_add (i := 12) _ (Nat.mod_lt _ (by norm_num))]
    simp only [pageAddr, ptePpn, pageOffset, Nat.testBit_mod_two_pow, Nat.testBit_div_two_pow, BitVec.testBit_toNat]
    interval_cases k <;> simp
  simp [h]

end Sys2Proof.Machine
end

