-- ==== Sys2Proof/Laws/Effects.lean ====
section
/-! SUPPORT. What an instruction can do, said once: `exec_effect`. Later proofs case on it and do not unfold exec. -/

namespace Sys2Proof.Machine

/-- A copy to reference memory fails for its sizes alone. -/
theorem refMemcpyTo_error {a : Word} {bs : List Byte} {n : Nat} {s t : State} {f : Fault} (h : refMemcpyTo a bs n s = .error (f,t)) : f = .foreignCallSize ∧ t = s := by
  unfold refMemcpyTo at h; split at h <;> simp_all

/-- A register copy to the reference fails for its size alone. -/
theorem refRegcpyTo_error {g : RegImage} {s t : State} {f : Fault} (h : refRegcpyTo g s = .error (f,t)) : f = .foreignCallSize ∧ t = s := by
  unfold refRegcpyTo at h; split at h <;> simp_all

/-- The mirror's refresh fails for its size alone. -/
theorem refRegcpyFrom_error {s t : State} {f : Fault} (h : refRegcpyFrom s = .error (f,t)) : f = .foreignCallSize ∧ t = s := by
  unfold refRegcpyFrom at h; dsimp only at h; split at h <;> simp_all

/-- A chain of calls that succeeds: its first call did. -/
theorem bind_eq_ok {α ε β : Type} {x : Except ε α} {f : α → Except ε β} {b : β} (h : (x >>= f) = .ok b) : ∃ a, x = .ok a ∧ f a = .ok b := by
  cases x with
  | ok a => exact ⟨a, rfl, h⟩
  | error e => cases h

/-- A chain of calls that fails: at its first call or after it. -/
theorem bind_eq_error {α ε β : Type} {x : Except ε α} {f : α → Except ε β} {b : ε} (h : (x >>= f) = .error b) : x = .error b ∨ ∃ a, x = .ok a ∧ f a = .error b := by
  cases x with
  | ok a => exact .inr ⟨a, rfl, h⟩
  | error e => cases h; exact .inl rfl

/-- ATTACH's calls leave everything but the reference's side as it was. -/
theorem attachCalls_same {s t : State} (h : attachCalls s = .ok t) : SameButReference s t := by
  unfold attachCalls at h
  obtain ⟨t1, h1, h⟩ := bind_eq_ok h
  obtain ⟨t2, h2, h⟩ := bind_eq_ok h
  obtain ⟨t3, h3, h⟩ := bind_eq_ok h
  obtain ⟨t4, h4, h⟩ := bind_eq_ok h
  have e2 := (refMemcpyTo_same h1).trans (refRegcpyTo_same h2)
  have e3 := (e2.trans (refExec_same _ _)).trans (refRegcpyTo_same h3)
  have e4 := e3.trans (SameButReference.trans (t := t3.logged [.pmemBytes s.cfg.resetVector 24]) rfl (refMemcpyTo_same h4))
  exact e4.trans (refRegcpyFrom_same h)

/-- ATTACH's calls fail for a size alone. -/
theorem attachCalls_error {s t : State} {f : Fault} (h : attachCalls s = .error (f, t)) : f = .foreignCallSize := by
  unfold attachCalls at h
  rcases bind_eq_error h with h | ⟨t1, h1, h⟩
  · exact (refMemcpyTo_error h).1
  rcases bind_eq_error h with h | ⟨t2, h2, h⟩
  · exact (refRegcpyTo_error h).1
  rcases bind_eq_error h with h | ⟨t3, h3, h⟩
  · exact (refRegcpyTo_error h).1
  rcases bind_eq_error h with h | ⟨t4, h4, h⟩
  · exact (refMemcpyTo_error h).1
  exact (refRegcpyFrom_error h).1

/-- `csrw` keeps the number of registers. -/
theorem csrwEffect_gpr_length {s : State} (h : s.ref.gpr.length = s.cfg.nrGpr.count) (c : BitVec 12) (r : BitVec 5) :
    (csrwEffect c r s).ref.gpr.length = s.cfg.nrGpr.count := by
  unfold csrwEffect; split
  · exact h
  · exact fitEngine_gpr_length _ _

/-- So does any run under REF-RV. -/
theorem refRvRun_gpr_length (n : Nat) {s : State} (h : s.ref.gpr.length = s.cfg.nrGpr.count) :
    (refRvRun n s).ref.gpr.length = s.cfg.nrGpr.count := by
  induction n generalizing s with
  | zero => exact h
  | succ k ih =>
    have hc := (refRvStep_same s).cfg_eq
    have := @ih (refRvStep s) (by
      rw [hc]; unfold refRvStep; split
      · exact csrwEffect_gpr_length h _ _
      · exact fitEngine_gpr_length _ _)
    rwa [hc] at this

/-- So does RefExec. -/
theorem refExec_gpr_length (n : Word) {s : State} (h : s.ref.gpr.length = s.cfg.nrGpr.count) :
    (refExec n s).ref.gpr.length = s.cfg.nrGpr.count := by
  unfold refExec
  rcases foreignCall_cases (.refExec n) (refExecEffect n) State.drawEngine s with ⟨-, h'⟩ | ⟨-, h'⟩ <;> rw [h']
  · unfold refExecEffect
    split
    · exact fitEngine_gpr_length _ _
    · exact refRvRun_gpr_length _ (s := { s.logged [.refExec n] with callFates := s.callFates.tail }) h
  · exact fitEngine_gpr_length _ _

/-- So does a copy to reference memory. -/
theorem refMemcpyTo_gpr_length {a : Word} {bs : List Byte} {n : Nat} {s t : State} (h : refMemcpyTo a bs n s = .ok t) (hs : s.ref.gpr.length = s.cfg.nrGpr.count) :
    t.ref.gpr.length = s.cfg.nrGpr.count := by
  unfold refMemcpyTo at h
  split at h
  · cases h
    rcases foreignCall_cases (.refMemcpy a n bs .toReference)
      (fun t => { t with ref := { t.ref with mem := writeBytesWrap t.ref.mem a bs } })
      State.drawEngine s with ⟨-, h⟩ | ⟨-, h⟩ <;> rw [h]
    · exact hs
    · exact fitEngine_gpr_length _ _
  · cases h

/-- A register copy to the reference leaves NR_GPR registers there. -/
theorem refRegcpyTo_gpr_length {g : RegImage} {s t : State} (h : refRegcpyTo g s = .ok t) : t.ref.gpr.length = s.cfg.nrGpr.count := by
  unfold refRegcpyTo at h
  split at h
  · next hg =>
    rw [imageSize_fit] at hg
    cases h
    rcases foreignCall_cases (.refRegcpy g .toReference)
      (fun t => { t with ref := { t.ref with gpr := g.gpr, pc := g.pc } })
      State.drawEngine s with ⟨-, h⟩ | ⟨-, h⟩ <;> rw [h]
    · show g.gpr.length = _; omega
    · exact fitEngine_gpr_length _ _
  · cases h

/-- ATTACH's calls go through when the register files have their size. -/
theorem attachCalls_isOk {s : State} (hf : s.FilesFit) : ∃ t, attachCalls s = .ok t := by
  obtain ⟨hg, -, -, he⟩ := hf
  obtain ⟨t1, h1⟩ := refMemcpyTo_isOk (a := s.cfg.resetVector) s length_bootstrapBytes
  have s1 := refMemcpyTo_same h1
  obtain ⟨t2, h2⟩ := refRegcpyTo_isOk (g := scratchImage s) (s := t1) (by rw [length_scratchImage, s1.cfg_eq, hg])
  have s2 := s1.trans (refRegcpyTo_same h2)
  have l2 := refRegcpyTo_gpr_length h2
  rw [s1.cfg_eq] at l2
  have s3 := s2.trans (refExec_same 6 t2)
  have l3 := refExec_gpr_length 6 (s := t2) (by rw [s2.cfg_eq]; exact l2)
  obtain ⟨t4, h4⟩ := refRegcpyTo_isOk (g := s.liveImage) (s := refExec 6 t2) (by rw [s3.cfg_eq]; exact hg)
  have s4 := s3.trans (refRegcpyTo_same h4)
  have l4 := refRegcpyTo_gpr_length h4
  rw [s3.cfg_eq] at l4
  obtain ⟨t5, h5⟩ := refMemcpyTo_isOk (a := s.cfg.resetVector) (t4.logged [.pmemBytes s.cfg.resetVector 24])
    (length_readBytes s.mem s.cfg.resetVector.toNat 24)
  have s5 := s4.trans (SameButReference.trans (t := t4.logged [.pmemBytes s.cfg.resetVector 24]) rfl
    (refMemcpyTo_same h5))
  have l5 := refMemcpyTo_gpr_length h5 (by show t4.ref.gpr.length = t4.cfg.nrGpr.count; rw [s4.cfg_eq]; exact l4)
  replace l5 : t5.ref.gpr.length = s.cfg.nrGpr.count := by rw [← s4.cfg_eq]; exact l5
  obtain ⟨t6, h6⟩ := refRegcpyFrom_isOk (s := t5) (by rw [s5.cfg_eq]; exact l5)
  refine ⟨t6, ?_⟩
  unfold attachCalls
  simp only [h1, bind, Except.bind, h2, h4]
  exact (by rw [pmemBytes, h5]; exact h6)

/-- STEP's calls go through when the register files have their size. -/
theorem stepCalls_isOk {s : State} (hf : s.FilesFit) : ∃ t, refRegcpyFrom (refExec s.busA s) = .ok t :=
  refRegcpyFrom_isOk (by rw [(refExec_same _ _).cfg_eq]; exact refExec_gpr_length _ hf.2.2.2)

/-- What an instruction may leave, when it answers a next state. One line per way; `csrw` has one of its own. -/
inductive Effect (s : State) : Instr → State → Prop
  /-- an answer; nothing else changes but the trace and, for a device's word, the draw counter -/
  | answers {i : Instr} (v : Word) (tr : List BusEvent) (d : Nat) (hp : i.port = .command) :
      Effect s i ({ s with trace := tr, draws := d }.answer v)
  /-- a Fatal that is no foreign call's -/
  | halts {i : Instr} (f : Fault) (tr : List BusEvent) (hp : i.port = .command)
      (hi : i ≠ .checkRegs ∧ i ≠ .query ∧ i ≠ .step) (hf : f ≠ .foreignCallSize) :
      Effect s i ({ s with trace := tr }.haltWith f)
  /-- a foreign call of the wrong size: only where the register files have not theirs -/
  | haltsInCall {i : Instr} (u : State) (hi : i = .attach ∨ i = .step) (hs : ¬ s.FilesFit) :
      Effect s i (haltAfterCalls s u .foreignCallSize)
  | stores (len : AccessLen) (pa : Word) (tr : List BusEvent) (hp : inPmem s.cfg pa len.bytes = true) :
      Effect s (.write len)
        ({ s with trace := tr, mem := writeBytes s.mem pa.toNat (leBytes len.bytes s.busB) }.answer 0)
  | raises : Effect s .raise ((s.enterTrap s.busA s.busB).answer s.csr.mtvec)
  | delivers (h1 : mieOf s.csr.mstatus = true) (h2 : s.csr.mtvec ≠ 0) (h3 : s.pending = true) :
      Effect s .query { s with pending := false, response := some ⟨.ok, true, s.cfg.irqTimer, []⟩ }
  | latches : Effect s .irqEdge ({ s with pending := true }.answer 0)
  | setsCsr (n : BitVec 12) (c : CsrName) (h : csrSelect n = some c) :
      Effect s (.csrSet n) ({ s with csr := writeCsr s.csr c s.busA }.answer 0)
  | setsGpr (r : BitVec 5) (h1 : r.toNat < s.cfg.nrGpr.count) (h2 : ¬ (r = 0 ∧ s.busA ≠ 0)) :
      Effect s (.gprWrite r) ({ s with gpr := writeGpr s.gpr r.toNat s.busA }.answer 0)
  | setsPc : Effect s .pcWrite ({ s with pc := s.busA }.answer 0)
  | attaches (t : State) (hs : SameButReference s t) (h : attachCalls s = .ok t) :
      Effect s .attach ({ t with boot := scratchImage s, cosim := .attached }.answer 0)
  | detaches : Effect s .detach ({ s with cosim := .detached }.answer 0)
  | compares : Effect s .checkRegs (s.compared s.busB)
  | steps (t : State) (hs : SameButReference s t) (h : refRegcpyFrom (refExec s.busA s) = .ok t) :
      Effect s .step (t.compared s.busB)
  | guest (c : BitVec 12) (r : BitVec 5) : Effect s (.csrw c r) (csrwEffect c r s)

/-- A walk never fails for a foreign call. -/
theorem walk_error {s : State} {v : Word} {len : AccessLen} {f : Fault} (h : (walk s v len).result = .error f) : f ≠ .foreignCallSize := by
  unfold walk walkLevel2 at h
  dsimp only at h
  repeat' split at h
  all_goals simp at h
  all_goals rw [← h]; simp

/-- Nor does the address of an access. -/
theorem physAddr_error {s : State} {v : Word} {len : AccessLen} {f : Fault} (h : (physAddr s v len).result = .error f) : f ≠ .foreignCallSize := by
  unfold physAddr at h
  split at h
  · split at h
    · simp at h
    · next hw => simp at h; exact walk_error (by rw [hw]; simpa using h)
  · simp at h

/-- What an instruction can do, once for all of them. -/
theorem exec_effect {i : Instr} {s t : State} (h : exec i s = .next t) : Effect s i t := by
  cases i with
  | check => cases h; exact .answers _ _ _ rfl
  | translate k l =>
    simp only [exec, execTranslate] at h
    split at h
    · cases h; exact .answers _ _ s.draws rfl
    · next hw => cases h; exact .halts _ _ rfl (by simp) (walk_error hw)
  | ifetch l =>
    simp only [exec, execIfetch, loadVirtual] at h
    split at h
    · next hw => cases h; exact .halts _ _ rfl (by simp) (physAddr_error hw)
    · split at h
      · next hr => cases h; exact .halts _ _ rfl (by simp) (by rw [(memRead_error hr).1]; simp)
      · next hr =>
        cases h
        rcases memRead_ok hr with ⟨-, -, h⟩ | ⟨-, -, -, h⟩
        · rw [h]; exact .answers _ _ s.draws rfl
        · rw [h]; exact .answers _ _ _ rfl
  | read l =>
    simp only [exec, execRead, loadVirtual] at h
    split at h
    · next hw => cases h; exact .halts _ _ rfl (by simp) (physAddr_error hw)
    · split at h
      · next hr => cases h; exact .halts _ _ rfl (by simp) (by rw [(memRead_error hr).1]; simp)
      · next hr =>
        cases h
        rcases memRead_ok hr with ⟨-, -, h⟩ | ⟨-, -, -, h⟩
        · rw [h]; exact .answers _ _ s.draws rfl
        · rw [h]; exact .answers _ _ _ rfl
  | write l =>
    simp only [exec, execWrite] at h
    split at h
    · next hw => cases h; exact .halts _ _ rfl (by simp) (physAddr_error hw)
    · split at h
      · next hr => cases h; exact .halts _ _ rfl (by simp) (by rw [(memWrite_error hr).1]; simp)
      · next hr =>
        cases h
        rcases memWrite_ok hr with ⟨hp, h⟩ | ⟨-, -, h⟩
        · rw [h]; exact .stores _ _ _ hp
        · rw [h]; exact .answers _ _ s.draws rfl
  | raise => cases h; exact .raises
  | query =>
    simp only [exec, execQuery] at h
    split at h
    · next hq => cases h; exact .delivers hq.1 hq.2.1 hq.2.2
    · cases h; exact .answers _ s.trace s.draws rfl
  | csrGet n =>
    simp only [exec, execCsrGet] at h
    split at h
    · cases h; exact .answers _ s.trace s.draws rfl
    · cases h; exact .halts _ s.trace rfl (by simp) (by simp)
  | csrSet n =>
    simp only [exec, execCsrSet] at h
    split at h
    · next hc => cases h; exact .setsCsr _ _ hc
    · cases h; exact .halts _ s.trace rfl (by simp) (by simp)
  | attach =>
    simp only [exec, execAttach] at h
    split at h
    · split at h
      · next ha => cases h; exact .attaches _ (attachCalls_same ha) ha
      · next ha =>
        cases h
        rw [attachCalls_error ha]
        refine .haltsInCall _ (.inl rfl) ?_
        intro hf; obtain ⟨t, ht⟩ := attachCalls_isOk hf; rw [ht] at ha; cases ha
    · cases h; exact .halts _ s.trace rfl (by simp) (by simp)
  | detach => cases h; exact .detaches
  | checkRegs => cases h; exact .compares
  | gprRead r =>
    simp only [exec, execGprRead] at h
    split at h
    · cases h; exact .answers _ s.trace s.draws rfl
    · cases h
  | gprWrite r =>
    simp only [exec, execGprWrite] at h
    split at h
    · split at h
      · cases h
      · next h1 h2 => cases h; exact .setsGpr _ h1 h2
    · cases h
  | pcRead => cases h; exact .answers _ s.trace s.draws rfl
  | pcWrite => cases h; exact .setsPc
  | irqEdge => cases h; exact .latches
  | step =>
    simp only [exec, execStep] at h
    split at h
    · cases h
    · split at h
      · cases h; exact .answers _ s.trace s.draws rfl
      · split at h
        · next ha => cases h; exact .steps _ ((refExec_same _ _).trans (refRegcpyFrom_same ha)) ha
        · next ha =>
          cases h
          rw [(refRegcpyFrom_error ha).1]
          refine .haltsInCall _ (.inr rfl) ?_
          intro hf; obtain ⟨t, ht⟩ := stepCalls_isOk hf; rw [ht] at ha; cases ha
  | csrw c r => cases h; exact .guest _ _

/-- What the command port decodes is a command. -/
theorem port_of_decode_command {w : Word} {i : Instr} (h : decode .command w = .ok i) : i.port = .command := by
  simp only [decode] at h
  unfold decodeFields at h
  repeat' split at h
  all_goals try cases h
  all_goals
    simp only [usesKindLen, usesLen, usesNone, usesReg, usesCsr] at h
    repeat' split at h
    all_goals first | (cases h; done) | (cases h; rfl)

/-- What a step can do: nothing, a command, a reset, a snapshot load. The reference engine has no step of its own
(00_scope.md R18). -/
theorem step_cases {s t : State} (h : step s = .next t) :
    (s.queue = [] ∧ t = s) ∨
    (∃ w a b rest i, s.queue = .command w a b :: rest ∧ s.halted = false ∧ decode .command w = .ok i ∧
      exec i { s with queue := rest, trace := [], busA := a, busB := b } = .next t) ∨
    (∃ d rest, s.queue = .reset d :: rest ∧ t = ({ s with queue := rest, trace := [] } : State).resetNow d) ∨
    (∃ image rest, s.queue = .snapshotLoad image :: rest ∧
      loadSnapshot image { s with queue := rest, trace := [] } = .next t) := by
  unfold step at h
  split at h
  · next hq => cases h; exact .inl ⟨hq, rfl⟩
  · next e rest hq =>
    cases e with
    | command w a b =>
      simp only [takeEvent, takeCommand] at h
      split at h
      · cases h
      · next hh =>
        split at h
        · next i hd => exact .inr (.inl ⟨w, a, b, rest, i, hq, by simpa using hh, hd, h⟩)
        · cases h
    | reset d => cases h; exact .inr (.inr (.inl ⟨d, rest, hq, rfl⟩))
    | snapshotLoad image => exact .inr (.inr (.inr ⟨image, rest, hq, h⟩))

end Sys2Proof.Machine
end

