-- ==== Sys2Proof/Laws/Attach.lean ====
section
/-! SUPPORT. The foreign calls when they complete: each one's next state in one equation, and ATTACH's six in one. -/

namespace Sys2Proof.Machine

theorem State.CallsComplete.tail {s : State} (h : s.CallsComplete) : ∀ f ∈ s.callFates.tail, f = CallFate.complete :=
  fun f hf => h f (List.mem_of_mem_tail hf)

theorem refMemcpyTo_complete {s : State} (hc : s.CallsComplete) (a : Word) {bs : List Byte} {n : Nat}
    (h : bs.length = n) :
    refMemcpyTo a bs n s = .ok { s with
      ref := { s.ref with mem := writeBytesWrap s.ref.mem a bs }
      callFates := s.callFates.tail
      trace := s.trace ++ [.refMemcpy a n bs .toReference] } := by
  unfold refMemcpyTo
  rw [if_pos h, foreignCall_complete hc]
  rfl

theorem refRegcpyTo_complete {s : State} (hc : s.CallsComplete) {g : RegImage}
    (h : g.gpr.length = s.cfg.nrGpr.count) :
    refRegcpyTo g s = .ok { s with
      ref := { s.ref with gpr := g.gpr, pc := g.pc }
      callFates := s.callFates.tail
      trace := s.trace ++ [.refRegcpy g .toReference] } := by
  unfold refRegcpyTo
  rw [if_pos (by rw [imageSize_fit, h]), foreignCall_complete hc]
  rfl

theorem refRegcpyFrom_complete {s : State} (hc : s.CallsComplete) (h : s.ref.gpr.length = s.cfg.nrGpr.count) :
    refRegcpyFrom s = .ok { s with
      mirror := ⟨s.ref.gpr, s.ref.pc⟩
      callFates := s.callFates.tail
      trace := s.trace ++ [.refRegcpy ⟨s.ref.gpr, s.ref.pc⟩ .fromReference] } := by
  unfold refRegcpyFrom
  dsimp only
  rw [if_pos (by rw [imageSize_fit, h]), foreignCall_complete hc]
  rfl

theorem refMemcpyFrom_complete {s : State} (hc : s.CallsComplete) (a : Word) {n m : Nat} (h : m = n) :
    refMemcpyFrom a n m s = .ok (readBytesWrap s.ref.mem a n, { s with
      callFates := s.callFates.tail
      trace := s.trace ++ [.refMemcpy a n (readBytesWrap s.ref.mem a n) .fromReference] }) := by
  unfold refMemcpyFrom
  rw [if_pos h, foreignCall_complete hc]
  rfl

theorem refExec_complete {s : State} (hc : s.CallsComplete) (n : Word) :
    refExec n s = refExecEffect n { s with
      callFates := s.callFates.tail
      trace := s.trace ++ [.refExec n] } := by
  unfold refExec
  rw [foreignCall_complete hc]
  rfl

/-- What RefExec does is done to the reference, with draws: the trace, the fates and the mirror stay. -/
theorem refExecEffect_keeps (n : Word) (s : State) :
    (refExecEffect n s).trace = s.trace ∧ (refExecEffect n s).callFates = s.callFates ∧
      (refExecEffect n s).mirror = s.mirror := by
  have one : ∀ s : State,
      (refRvStep s).trace = s.trace ∧ (refRvStep s).callFates = s.callFates ∧ (refRvStep s).mirror = s.mirror := by
    intro s
    unfold refRvStep csrwEffect
    split
    · split <;> exact ⟨rfl, rfl, rfl⟩
    · exact ⟨rfl, rfl, rfl⟩
  unfold refExecEffect
  split
  · exact ⟨rfl, rfl, rfl⟩
  · generalize n.toNat = k
    clear * - one
    induction k generalizing s with
    | zero => exact ⟨rfl, rfl, rfl⟩
    | succ k ih => exact ⟨(ih _).1.trans (one s).1, (ih _).2.1.trans (one s).2.1, (ih _).2.2.trans (one s).2.2⟩

/-- One `csrw` of a run under REF-RV, in terms of the engine's parts: the form to chain. -/
theorem refRvRun_csrw {w : State} {cfg : Config} {g : List Word} {p : Word} {csrs : Sparse 32} {m : Memory}
    {hid d k : Nat} {c : BitVec 12} {r : BitVec 5} (hc : w.cfg = cfg) (hw : w.draws = d)
    (he : w.ref = ⟨g, p, csrs, m, hid⟩)
    (hd : decode .reference (leWord (readBytesWrap m p 4)) = .ok (.csrw c r)) (hr : r.toNat < cfg.nrGpr.count)
    (hv : cfg.ref = .refRV) :
    ∃ w', refRvRun (k + 1) w = refRvRun k w' ∧ w'.cfg = cfg ∧ w'.draws = d + 1 ∧
      w'.ref = ⟨g, p + 4,
        sparseSet csrs c.toNat (Config.legalised d c (if r = 0 then 0 else readGpr g r.toNat)), m, hid⟩ := by
  subst hc hw
  have h : refRvStep w = csrwEffect c r w := by
    unfold refRvStep
    rw [he, show refFetch ⟨g, p, csrs, m, hid⟩ = leWord (readBytesWrap m p 4) from rfl, hd]
  rw [csrwEffect, if_pos ⟨hv, hr⟩] at h
  refine ⟨refRvStep w, rfl, by rw [h], by rw [h], ?_⟩
  rw [h, he]
  rfl

/-- RefExec(1) where the word at the reference's pc is a `csrw`: that instruction's meaning, under REF-RV or not. -/
theorem refExecEffect_csrw {s : State} {c : BitVec 12} {r : BitVec 5}
    (h : decode .reference (refFetch s.ref) = .ok (.csrw c r)) : refExecEffect 1 s = csrwEffect c r s := by
  unfold refExecEffect
  split
  · next hb =>
    rw [csrwEffect, if_neg]
    rw [hb]
    rintro ⟨h, -⟩
    cases h
  · show refRvStep s = _
    rw [refRvStep, h]

/-- The state RefExec(6) starts from inside ATTACH, the two copies before it complete. -/
def bootState (s : State) : State :=
  { s with
    ref :=
      { s.ref with
        gpr := (scratchImage s).gpr
        pc := s.cfg.resetVector
        mem := writeBytesWrap s.ref.mem s.cfg.resetVector bootstrapBytes }
    callFates := s.callFates.tail.tail.tail
    trace := s.trace ++
      [.refMemcpy s.cfg.resetVector 24 bootstrapBytes .toReference, .refRegcpy (scratchImage s) .toReference,
       .refExec 6] }

/-- ATTACH's six calls, all complete, from what RefExec(6) makes of the reference. -/
theorem attachCalls_complete {s u : State} (hg : s.gpr.length = s.cfg.nrGpr.count) (hc : s.CallsComplete)
    (hu : refExecEffect 6 (bootState s) = u) :
    attachCalls s = .ok { u with
      ref :=
        { u.ref with
          gpr := s.gpr
          pc := s.pc
          mem := writeBytesWrap u.ref.mem s.cfg.resetVector (readBytes s.mem s.cfg.resetVector.toNat 24) }
      mirror := ⟨s.gpr, s.pc⟩
      callFates := u.callFates.tail.tail.tail
      trace := s.trace ++
        [.refMemcpy s.cfg.resetVector 24 bootstrapBytes .toReference, .refRegcpy (scratchImage s) .toReference,
         .refExec 6, .refRegcpy ⟨s.gpr, s.pc⟩ .toReference, .pmemBytes s.cfg.resetVector 24,
         .refMemcpy s.cfg.resetVector 24 (readBytes s.mem s.cfg.resetVector.toNat 24) .toReference,
         .refRegcpy ⟨s.gpr, s.pc⟩ .fromReference] } := by
  have hcfg : u.cfg = s.cfg := by rw [← hu]; exact (refExecEffect_same 6 (bootState s)).cfg_eq
  have hk := refExecEffect_keeps 6 (bootState s)
  rw [hu] at hk
  obtain ⟨htr, hf, -⟩ := hk
  have hcu : u.CallsComplete := by
    intro f h
    rw [hf] at h
    exact hc f (List.mem_of_mem_tail (List.mem_of_mem_tail (List.mem_of_mem_tail h)))
  unfold attachCalls
  simp only [bind, Except.bind]
  rw [refMemcpyTo_complete hc _ length_bootstrapBytes]
  dsimp only
  rw [refRegcpyTo_complete hc.tail (by rw [length_scratchImage, hg])]
  dsimp only
  rw [refExec_complete (State.CallsComplete.tail (s := { s with callFates := s.callFates.tail }) hc.tail)]
  rw [show refExecEffect 6 _ = u from (by rw [← hu]; simp [bootState, scratchImage])]
  rw [refRegcpyTo_complete hcu (g := s.liveImage) (by rw [hcfg]; exact hg)]
  dsimp only
  have copyBack : ∀ v : State, v.CallsComplete → _ := fun v hv =>
    refMemcpyTo_complete hv s.cfg.resetVector (length_readBytes s.mem s.cfg.resetVector.toNat 24)
  rw [pmemBytes, copyBack _ hcu.tail]
  dsimp only
  rw [refRegcpyFrom_complete (State.CallsComplete.tail (s := { u with callFates := u.callFates.tail }) hcu.tail)
    (by show s.gpr.length = u.cfg.nrGpr.count; rw [hcfg, hg])]
  simp [State.liveImage, State.logged, htr, bootState]

end Sys2Proof.Machine
end

