-- ==== Sys2Proof/Laws/Buses.lean ====
section
/-! SUPPORT. The reference's side does not read the operand buses: its operations commute with a change of buses. -/

namespace Sys2Proof.Machine

/-- The state with other values on the operand buses. -/
def State.withBuses (s : State) (a b : Word) : State := { s with busA := a, busB := b }

theorem csrwEffect_withBuses (c : BitVec 12) (r : BitVec 5) (s : State) (a b : Word) :
    csrwEffect c r (s.withBuses a b) = (csrwEffect c r s).withBuses a b := by
  unfold csrwEffect
  rw [show (s.withBuses a b).cfg = s.cfg from rfl]
  split <;> rfl

theorem refRvStep_withBuses (s : State) (a b : Word) :
    refRvStep (s.withBuses a b) = (refRvStep s).withBuses a b := by
  unfold refRvStep
  rw [show refFetch (s.withBuses a b).ref = refFetch s.ref from rfl]
  split
  · exact csrwEffect_withBuses _ _ _ _ _
  · rfl

theorem refRvRun_withBuses (n : Nat) (s : State) (a b : Word) :
    refRvRun n (s.withBuses a b) = (refRvRun n s).withBuses a b := by
  induction n generalizing s with
  | zero => rfl
  | succ k ih => rw [refRvRun, refRvRun, refRvStep_withBuses, ih]

theorem refExecEffect_withBuses (n : Word) (s : State) (a b : Word) :
    refExecEffect n (s.withBuses a b) = (refExecEffect n s).withBuses a b := by
  unfold refExecEffect
  rw [show (s.withBuses a b).cfg = s.cfg from rfl]
  split
  · rfl
  · exact refRvRun_withBuses _ _ _ _

/-- A foreign call whose two effects do not read the buses does not either. -/
theorem foreignCall_withBuses (e : BusEvent) {full short : State → State} {a b : Word}
    (hf : ∀ s, full (s.withBuses a b) = (full s).withBuses a b)
    (hs : ∀ s, short (s.withBuses a b) = (short s).withBuses a b) (s : State) :
    foreignCall e full short (s.withBuses a b) = (foreignCall e full short s).withBuses a b := by
  unfold foreignCall
  rw [show (s.withBuses a b).callFates = s.callFates from rfl]
  dsimp only
  split
  · exact hf { s.logged [e] with callFates := s.callFates.tail }
  · exact hs { s.logged [e] with callFates := s.callFates.tail }

theorem refExec_withBuses (n : Word) (s : State) (a b : Word) :
    refExec n (s.withBuses a b) = (refExec n s).withBuses a b :=
  foreignCall_withBuses _ (fun s => refExecEffect_withBuses n s a b) (fun _ => rfl) s

/-- How a result of foreign calls changes with the buses. -/
def Calls.withBuses (r : Except (Fault × State) State) (a b : Word) : Except (Fault × State) State :=
  match r with
  | .ok t => .ok (t.withBuses a b)
  | .error (f, t) => .error (f, t.withBuses a b)

theorem refMemcpyTo_withBuses (addr : Word) (bytes : List Byte) (len : Nat) (s : State) (a b : Word) :
    refMemcpyTo addr bytes len (s.withBuses a b) = Calls.withBuses (refMemcpyTo addr bytes len s) a b := by
  unfold refMemcpyTo
  split
  · exact congrArg Except.ok (foreignCall_withBuses _ (fun _ => rfl) (fun _ => rfl) s)
  · rfl

theorem refRegcpyTo_withBuses (g : RegImage) (s : State) (a b : Word) :
    refRegcpyTo g (s.withBuses a b) = Calls.withBuses (refRegcpyTo g s) a b := by
  unfold refRegcpyTo
  rw [show (s.withBuses a b).cfg = s.cfg from rfl]
  split
  · exact congrArg Except.ok (foreignCall_withBuses _ (fun _ => rfl) (fun _ => rfl) s)
  · rfl

theorem refRegcpyFrom_withBuses (s : State) (a b : Word) :
    refRegcpyFrom (s.withBuses a b) = Calls.withBuses (refRegcpyFrom s) a b := by
  unfold refRegcpyFrom
  rw [show (s.withBuses a b).cfg = s.cfg from rfl, show (s.withBuses a b).ref = s.ref from rfl]
  dsimp only
  split
  · exact congrArg Except.ok (foreignCall_withBuses _ (fun _ => rfl) (fun _ => rfl) s)
  · rfl

theorem Calls.bind_withBuses {r r' : Except (Fault × State) State} {f g : State → Except (Fault × State) State}
    {a b : Word} (hr : r' = Calls.withBuses r a b) (hf : ∀ t, g (t.withBuses a b) = Calls.withBuses (f t) a b) :
    (r' >>= g) = Calls.withBuses (r >>= f) a b := by
  subst hr
  cases r with
  | ok t => exact hf t
  | error e => rfl

/-- ATTACH's foreign calls do not read the buses. -/
theorem attachCalls_withBuses (s : State) (a b : Word) :
    attachCalls (s.withBuses a b) = Calls.withBuses (attachCalls s) a b := by
  unfold attachCalls
  refine Calls.bind_withBuses (refMemcpyTo_withBuses _ _ _ _ _ _) fun t1 => ?_
  refine Calls.bind_withBuses (refRegcpyTo_withBuses _ _ _ _) fun t2 => ?_
  dsimp only
  rw [refExec_withBuses]
  refine Calls.bind_withBuses (refRegcpyTo_withBuses _ _ _ _) fun t3 => ?_
  refine Calls.bind_withBuses (refMemcpyTo_withBuses _ _ _ (t3.logged _) _ _) fun t4 => ?_
  exact refRegcpyFrom_withBuses _ _ _

/-- MemRead does not read the buses. -/
theorem memRead_withBuses (s : State) (pa : Word) (n : Nat) (a b : Word) :
    memRead (s.withBuses a b) pa n = (memRead s pa n).map fun r => (r.1, r.2.withBuses a b) := by
  unfold memRead
  rw [show (s.withBuses a b).cfg = s.cfg from rfl]
  split
  · rfl
  · split <;> rfl

/-- A load does not read bus B. -/
theorem loadVirtual_next_busB {len : AccessLen} {s t : State} (v : Word) (h : loadVirtual len s = .next t) :
    loadVirtual len (s.withBuses s.busA v) = .next (t.withBuses t.busA v) := by
  unfold loadVirtual at h ⊢
  rw [show physAddr (s.withBuses s.busA v) (s.withBuses s.busA v).busA len = physAddr s s.busA len from rfl]
  dsimp only at h ⊢
  cases hr : (physAddr s s.busA len).result with
  | error f =>
    rw [hr] at h
    cases h
    rfl
  | ok pa =>
    rw [hr] at h
    dsimp only at h ⊢
    rw [show (s.withBuses s.busA v).logged ((physAddr s s.busA len).reads.map .pteRead) =
      (s.logged ((physAddr s s.busA len).reads.map .pteRead)).withBuses s.busA v from rfl, memRead_withBuses]
    cases hm : memRead (s.logged ((physAddr s s.busA len).reads.map .pteRead)) pa len.bytes with
    | error f =>
      rw [hm] at h
      cases h
      rfl
    | ok r =>
      rw [hm] at h
      cases h
      have hb : r.2.busA = s.busA := by
        rcases memRead_ok hm with ⟨-, -, hu⟩ | ⟨-, -, -, hu⟩ <;> rw [hu] <;> rfl
      show Host.Outcome.next _ = Host.Outcome.next ((r.2.answer r.1).withBuses r.2.busA v)
      rw [hb]
      rfl

end Sys2Proof.Machine
end

