-- ==== Sys2Proof/Laws/Encoding.lean ====
section
/-! SUPPORT. Fields and words: taking a word apart and putting it together are inverse, for both word formats. -/

namespace Sys2Proof

theorem commandFields_commandWord (f : CommandFields) : commandFields (commandWord f) = f := by
  obtain ⟨op, kind, len, csr, reg, rsv⟩ := f
  simp only [commandFields, commandWord, CommandFields.mk.injEq]
  refine ⟨?_, ?_, ?_, ?_, ?_, ?_⟩ <;> apply BitVec.eq_of_getLsbD_eq <;> intro k hk <;> interval_cases k <;> simp

theorem commandWord_commandFields (w : Word) : commandWord (commandFields w) = w := by
  apply BitVec.eq_of_getLsbD_eq
  intro k hk
  interval_cases k <;> simp [commandFields, commandWord]

theorem csrrwFields_csrrwWord (f : CsrrwFields) : csrrwFields (csrrwWord f) = f := by
  obtain ⟨opcode, rd, funct3, rs1, csr⟩ := f
  simp only [csrrwFields, csrrwWord, CsrrwFields.mk.injEq]
  refine ⟨?_, ?_, ?_, ?_, ?_⟩ <;> apply BitVec.eq_of_getLsbD_eq <;> intro k hk <;> interval_cases k <;> simp

theorem csrrwWord_csrrwFields (w : Word) : csrrwWord (csrrwFields w) = w := by
  apply BitVec.eq_of_getLsbD_eq
  intro k hk
  interval_cases k <;> simp [csrrwFields, csrrwWord]

/-- The codes of lengths decode to them and are the only ones that do. -/
theorem decodeLen_eq_ok (n : BitVec 4) (l : AccessLen) : decodeLen n = .ok l ↔ n = lenCode l := by
  obtain ⟨n, hn⟩ := n
  cases l <;> interval_cases n <;> simp [decodeLen, lenCode]

/-- The codes of access kinds decode to them and are the only ones that do. -/
theorem decodeKind_eq_ok (n : BitVec 2) (k : AccessKind) : decodeKind n = .ok k ↔ n = kindCode k := by
  obtain ⟨n, hn⟩ := n
  cases k <;> interval_cases n <;> simp [decodeKind, kindCode]

/-- The word of a command that uses `csr` alone, as a number (30_encoding.md R62, R65). -/
theorem toNat_csrCommand (op : BitVec 5) (n : BitVec 12) :
    (commandWord { bareFields op with csr := n }).toNat = n.toNat * 2 ^ 11 + op.toNat := by
  have hn := n.isLt
  have ho := op.isLt
  simp only [commandWord, bareFields, BitVec.toNat_or, BitVec.toNat_shiftLeft, BitVec.toNat_setWidth]
  simp
  rw [Nat.mod_eq_of_lt (a := n.toNat) (by omega), Nat.mod_eq_of_lt (a := op.toNat) (by omega),
    Nat.mod_eq_of_lt (by rw [Nat.shiftLeft_eq]; omega), ← Nat.shiftLeft_add_eq_or_of_lt (by omega), Nat.shiftLeft_eq]

/-- The word of a command that uses `reg` alone, as a number (30_encoding.md R62, R65). -/
theorem toNat_regCommand (op : BitVec 5) (r : BitVec 5) :
    (commandWord { bareFields op with reg := r }).toNat = r.toNat * 2 ^ 23 + op.toNat := by
  have hr := r.isLt
  have ho := op.isLt
  simp only [commandWord, bareFields, BitVec.toNat_or, BitVec.toNat_shiftLeft, BitVec.toNat_setWidth]
  simp
  rw [Nat.mod_eq_of_lt (a := r.toNat) (by omega), Nat.mod_eq_of_lt (a := op.toNat) (by omega),
    Nat.mod_eq_of_lt (by rw [Nat.shiftLeft_eq]; omega), ← Nat.shiftLeft_add_eq_or_of_lt (by omega), Nat.shiftLeft_eq]

end Sys2Proof
end

