-- ==== Sys2Proof/Laws/PerInstr.lean ====
section
/-! SUPPORT. A law per instruction: its word has the match value under the mask of its row of spec/opcode_table.json. -/

namespace Sys2Proof.Laws.TableRow

/-- The row's mask, as spec/opcode_table.json gives it. -/
def mask : Instr → Word
  | .check _ _ | .translate _ _ => 0xFFFFF81F#32
  | .ifetch _ | .read _ | .write _ => 0xFFFFF87F#32
  | .csrGet _ | .csrSet _ => 0xFF8007FF#32
  | .gprRead _ | .gprWrite _ => 0xF07FFFFF#32
  | .csrw _ _ => 0x00007FFF#32
  | .raise | .query | .attach | .detach | .checkRegs | .pcRead | .pcWrite | .irqEdge | .step => 0xFFFFFFFF#32

/-- The row's match value, as spec/opcode_table.json gives it. -/
def matchValue : Instr → Word
  | .check _ _ => 0x00000001#32
  | .translate _ _ => 0x00000002#32
  | .ifetch _ => 0x00000003#32
  | .read _ => 0x00000004#32
  | .write _ => 0x00000005#32
  | .raise => 0x00000006#32
  | .query => 0x00000007#32
  | .csrGet _ => 0x00000008#32
  | .csrSet _ => 0x00000009#32
  | .attach => 0x0000000A#32
  | .detach => 0x0000000B#32
  | .checkRegs => 0x0000000C#32
  | .gprRead _ => 0x0000000D#32
  | .gprWrite _ => 0x0000000E#32
  | .pcRead => 0x0000000F#32
  | .pcWrite => 0x00000010#32
  | .irqEdge => 0x00000011#32
  | .step => 0x00000012#32
  | .csrw _ _ => 0x00001073#32

/-- The word of an instruction matches its row of the opcode table. -/
def Statement (i : Instr) : Prop := encode i &&& mask i = matchValue i

theorem check (kind : AccessKind) (len : AccessLen) : Statement (.check kind len) := by
  cases kind <;> cases len <;> rfl

theorem translate (kind : AccessKind) (len : AccessLen) : Statement (.translate kind len) := by
  cases kind <;> cases len <;> rfl

theorem ifetch (len : AccessLen) : Statement (.ifetch len) := by cases len <;> rfl

theorem read (len : AccessLen) : Statement (.read len) := by cases len <;> rfl

theorem write (len : AccessLen) : Statement (.write len) := by cases len <;> rfl

theorem raise : Statement .raise := rfl

theorem query : Statement .query := rfl

/-- A CSR number never reaches the fixed bits of a command word. -/
theorem csrField_masked (op : BitVec 5) (c : BitVec 12) :
    commandWord { bareFields op with csr := c } &&& 0xFF8007FF#32 = op.setWidth 32 := by
  apply BitVec.eq_of_getLsbD_eq
  intro k hk
  interval_cases k <;> simp [commandWord, bareFields]

/-- A register number never reaches the fixed bits of a command word. -/
theorem regField_masked (op : BitVec 5) (r : BitVec 5) :
    commandWord { bareFields op with reg := r } &&& 0xF07FFFFF#32 = op.setWidth 32 := by
  apply BitVec.eq_of_getLsbD_eq
  intro k hk
  interval_cases k <;> simp [commandWord, bareFields]

theorem csrGet (csr : BitVec 12) : Statement (.csrGet csr) := csrField_masked 0x08 csr

theorem csrSet (csr : BitVec 12) : Statement (.csrSet csr) := csrField_masked 0x09 csr

theorem attach : Statement .attach := rfl

theorem detach : Statement .detach := rfl

theorem checkRegs : Statement .checkRegs := rfl

theorem gprRead (reg : BitVec 5) : Statement (.gprRead reg) := regField_masked 0x0D reg

theorem gprWrite (reg : BitVec 5) : Statement (.gprWrite reg) := regField_masked 0x0E reg

theorem pcRead : Statement .pcRead := rfl

theorem pcWrite : Statement .pcWrite := rfl

theorem irqEdge : Statement .irqEdge := rfl

theorem step : Statement .step := rfl

theorem csrw (csr : BitVec 12) (rs1 : BitVec 5) : Statement (.csrw csr rs1) := by
  apply BitVec.eq_of_getLsbD_eq
  intro k hk
  interval_cases k <;>
    simp [encode, csrrwWord, mask, matchValue]

end Sys2Proof.Laws.TableRow
end

