-- ==== Sys2Proof/Laws/State.lean ====
section
/-! SUPPORT. One lemma per field per update of State: what each named update leaves in each field. -/

namespace Sys2Proof.Machine

@[simp] theorem State.answer_cfg (s : State) (v : Word) : (s.answer v).cfg = s.cfg := rfl
@[simp] theorem State.answer_gpr (s : State) (v : Word) : (s.answer v).gpr = s.gpr := rfl
@[simp] theorem State.answer_pc (s : State) (v : Word) : (s.answer v).pc = s.pc := rfl
@[simp] theorem State.answer_pending (s : State) (v : Word) : (s.answer v).pending = s.pending := rfl
@[simp] theorem State.answer_csr (s : State) (v : Word) : (s.answer v).csr = s.csr := rfl
@[simp] theorem State.answer_mirror (s : State) (v : Word) : (s.answer v).mirror = s.mirror := rfl
@[simp] theorem State.answer_boot (s : State) (v : Word) : (s.answer v).boot = s.boot := rfl
@[simp] theorem State.answer_cosim (s : State) (v : Word) : (s.answer v).cosim = s.cosim := rfl
@[simp] theorem State.answer_halted (s : State) (v : Word) : (s.answer v).halted = s.halted := rfl
@[simp] theorem State.answer_haltReason (s : State) (v : Word) : (s.answer v).haltReason = s.haltReason := rfl
@[simp] theorem State.answer_mem (s : State) (v : Word) : (s.answer v).mem = s.mem := rfl
@[simp] theorem State.answer_ref (s : State) (v : Word) : (s.answer v).ref = s.ref := rfl
@[simp] theorem State.answer_busA (s : State) (v : Word) : (s.answer v).busA = s.busA := rfl
@[simp] theorem State.answer_busB (s : State) (v : Word) : (s.answer v).busB = s.busB := rfl
@[simp] theorem State.answer_queue (s : State) (v : Word) : (s.answer v).queue = s.queue := rfl
@[simp] theorem State.answer_callFates (s : State) (v : Word) : (s.answer v).callFates = s.callFates := rfl
@[simp] theorem State.answer_draws (s : State) (v : Word) : (s.answer v).draws = s.draws := rfl
@[simp] theorem State.answer_response (s : State) (v : Word) : (s.answer v).response = some { status := .ok, valid := false, value := v, mismatches := [] } := rfl
@[simp] theorem State.answer_trace (s : State) (v : Word) : (s.answer v).trace = s.trace := rfl

@[simp] theorem State.haltWith_cfg (s : State) (r : Fault) : (s.haltWith r).cfg = s.cfg := rfl
@[simp] theorem State.haltWith_gpr (s : State) (r : Fault) : (s.haltWith r).gpr = s.gpr := rfl
@[simp] theorem State.haltWith_pc (s : State) (r : Fault) : (s.haltWith r).pc = s.pc := rfl
@[simp] theorem State.haltWith_pending (s : State) (r : Fault) : (s.haltWith r).pending = s.pending := rfl
@[simp] theorem State.haltWith_csr (s : State) (r : Fault) : (s.haltWith r).csr = s.csr := rfl
@[simp] theorem State.haltWith_mirror (s : State) (r : Fault) : (s.haltWith r).mirror = s.mirror := rfl
@[simp] theorem State.haltWith_boot (s : State) (r : Fault) : (s.haltWith r).boot = s.boot := rfl
@[simp] theorem State.haltWith_cosim (s : State) (r : Fault) : (s.haltWith r).cosim = s.cosim := rfl
@[simp] theorem State.haltWith_halted (s : State) (r : Fault) : (s.haltWith r).halted = true := rfl
@[simp] theorem State.haltWith_haltReason (s : State) (r : Fault) : (s.haltWith r).haltReason = some r := rfl
@[simp] theorem State.haltWith_mem (s : State) (r : Fault) : (s.haltWith r).mem = s.mem := rfl
@[simp] theorem State.haltWith_ref (s : State) (r : Fault) : (s.haltWith r).ref = s.ref := rfl
@[simp] theorem State.haltWith_busA (s : State) (r : Fault) : (s.haltWith r).busA = s.busA := rfl
@[simp] theorem State.haltWith_busB (s : State) (r : Fault) : (s.haltWith r).busB = s.busB := rfl
@[simp] theorem State.haltWith_queue (s : State) (r : Fault) : (s.haltWith r).queue = s.queue := rfl
@[simp] theorem State.haltWith_callFates (s : State) (r : Fault) : (s.haltWith r).callFates = s.callFates := rfl
@[simp] theorem State.haltWith_draws (s : State) (r : Fault) : (s.haltWith r).draws = s.draws := rfl
@[simp] theorem State.haltWith_response (s : State) (r : Fault) : (s.haltWith r).response = some { status := .fatal r, valid := false, value := 0, mismatches := [] } := rfl
@[simp] theorem State.haltWith_trace (s : State) (r : Fault) : (s.haltWith r).trace = s.trace := rfl

@[simp] theorem State.logged_cfg (s : State) (es : List BusEvent) : (s.logged es).cfg = s.cfg := rfl
@[simp] theorem State.logged_gpr (s : State) (es : List BusEvent) : (s.logged es).gpr = s.gpr := rfl
@[simp] theorem State.logged_pc (s : State) (es : List BusEvent) : (s.logged es).pc = s.pc := rfl
@[simp] theorem State.logged_pending (s : State) (es : List BusEvent) : (s.logged es).pending = s.pending := rfl
@[simp] theorem State.logged_csr (s : State) (es : List BusEvent) : (s.logged es).csr = s.csr := rfl
@[simp] theorem State.logged_mirror (s : State) (es : List BusEvent) : (s.logged es).mirror = s.mirror := rfl
@[simp] theorem State.logged_boot (s : State) (es : List BusEvent) : (s.logged es).boot = s.boot := rfl
@[simp] theorem State.logged_cosim (s : State) (es : List BusEvent) : (s.logged es).cosim = s.cosim := rfl
@[simp] theorem State.logged_halted (s : State) (es : List BusEvent) : (s.logged es).halted = s.halted := rfl
@[simp] theorem State.logged_haltReason (s : State) (es : List BusEvent) : (s.logged es).haltReason = s.haltReason := rfl
@[simp] theorem State.logged_mem (s : State) (es : List BusEvent) : (s.logged es).mem = s.mem := rfl
@[simp] theorem State.logged_ref (s : State) (es : List BusEvent) : (s.logged es).ref = s.ref := rfl
@[simp] theorem State.logged_busA (s : State) (es : List BusEvent) : (s.logged es).busA = s.busA := rfl
@[simp] theorem State.logged_busB (s : State) (es : List BusEvent) : (s.logged es).busB = s.busB := rfl
@[simp] theorem State.logged_queue (s : State) (es : List BusEvent) : (s.logged es).queue = s.queue := rfl
@[simp] theorem State.logged_callFates (s : State) (es : List BusEvent) : (s.logged es).callFates = s.callFates := rfl
@[simp] theorem State.logged_draws (s : State) (es : List BusEvent) : (s.logged es).draws = s.draws := rfl
@[simp] theorem State.logged_response (s : State) (es : List BusEvent) : (s.logged es).response = s.response := rfl
@[simp] theorem State.logged_trace (s : State) (es : List BusEvent) : (s.logged es).trace = s.trace ++ es := rfl

@[simp] theorem State.enterTrap_cfg (s : State) (c p : Word) : (s.enterTrap c p).cfg = s.cfg := rfl
@[simp] theorem State.enterTrap_gpr (s : State) (c p : Word) : (s.enterTrap c p).gpr = s.gpr := rfl
@[simp] theorem State.enterTrap_pc (s : State) (c p : Word) : (s.enterTrap c p).pc = s.pc := rfl
@[simp] theorem State.enterTrap_pending (s : State) (c p : Word) : (s.enterTrap c p).pending = s.pending := rfl
@[simp] theorem State.enterTrap_csr (s : State) (c p : Word) : (s.enterTrap c p).csr = { s.csr with mepc := p, mcause := c, mstatus := trapStatus s.csr.mstatus } := rfl
@[simp] theorem State.enterTrap_mirror (s : State) (c p : Word) : (s.enterTrap c p).mirror = s.mirror := rfl
@[simp] theorem State.enterTrap_boot (s : State) (c p : Word) : (s.enterTrap c p).boot = s.boot := rfl
@[simp] theorem State.enterTrap_cosim (s : State) (c p : Word) : (s.enterTrap c p).cosim = s.cosim := rfl
@[simp] theorem State.enterTrap_halted (s : State) (c p : Word) : (s.enterTrap c p).halted = s.halted := rfl
@[simp] theorem State.enterTrap_haltReason (s : State) (c p : Word) : (s.enterTrap c p).haltReason = s.haltReason := rfl
@[simp] theorem State.enterTrap_mem (s : State) (c p : Word) : (s.enterTrap c p).mem = s.mem := rfl
@[simp] theorem State.enterTrap_ref (s : State) (c p : Word) : (s.enterTrap c p).ref = s.ref := rfl
@[simp] theorem State.enterTrap_busA (s : State) (c p : Word) : (s.enterTrap c p).busA = s.busA := rfl
@[simp] theorem State.enterTrap_busB (s : State) (c p : Word) : (s.enterTrap c p).busB = s.busB := rfl
@[simp] theorem State.enterTrap_queue (s : State) (c p : Word) : (s.enterTrap c p).queue = s.queue := rfl
@[simp] theorem State.enterTrap_callFates (s : State) (c p : Word) : (s.enterTrap c p).callFates = s.callFates := rfl
@[simp] theorem State.enterTrap_draws (s : State) (c p : Word) : (s.enterTrap c p).draws = s.draws := rfl
@[simp] theorem State.enterTrap_response (s : State) (c p : Word) : (s.enterTrap c p).response = s.response := rfl
@[simp] theorem State.enterTrap_trace (s : State) (c p : Word) : (s.enterTrap c p).trace = s.trace := rfl

@[simp] theorem State.drawEngine_cfg (s : State) : (s.drawEngine).cfg = s.cfg := rfl
@[simp] theorem State.drawEngine_gpr (s : State) : (s.drawEngine).gpr = s.gpr := rfl
@[simp] theorem State.drawEngine_pc (s : State) : (s.drawEngine).pc = s.pc := rfl
@[simp] theorem State.drawEngine_pending (s : State) : (s.drawEngine).pending = s.pending := rfl
@[simp] theorem State.drawEngine_csr (s : State) : (s.drawEngine).csr = s.csr := rfl
@[simp] theorem State.drawEngine_mirror (s : State) : (s.drawEngine).mirror = s.mirror := rfl
@[simp] theorem State.drawEngine_boot (s : State) : (s.drawEngine).boot = s.boot := rfl
@[simp] theorem State.drawEngine_cosim (s : State) : (s.drawEngine).cosim = s.cosim := rfl
@[simp] theorem State.drawEngine_halted (s : State) : (s.drawEngine).halted = s.halted := rfl
@[simp] theorem State.drawEngine_haltReason (s : State) : (s.drawEngine).haltReason = s.haltReason := rfl
@[simp] theorem State.drawEngine_mem (s : State) : (s.drawEngine).mem = s.mem := rfl
@[simp] theorem State.drawEngine_ref (s : State) : (s.drawEngine).ref = fitEngine s.cfg (Config.freeEngine s.draws) := rfl
@[simp] theorem State.drawEngine_busA (s : State) : (s.drawEngine).busA = s.busA := rfl
@[simp] theorem State.drawEngine_busB (s : State) : (s.drawEngine).busB = s.busB := rfl
@[simp] theorem State.drawEngine_queue (s : State) : (s.drawEngine).queue = s.queue := rfl
@[simp] theorem State.drawEngine_callFates (s : State) : (s.drawEngine).callFates = s.callFates := rfl
@[simp] theorem State.drawEngine_draws (s : State) : (s.drawEngine).draws = s.draws + 1 := rfl
@[simp] theorem State.drawEngine_response (s : State) : (s.drawEngine).response = s.response := rfl
@[simp] theorem State.drawEngine_trace (s : State) : (s.drawEngine).trace = s.trace := rfl

@[simp] theorem State.drawMirror_cfg (s : State) : (s.drawMirror).cfg = s.cfg := rfl
@[simp] theorem State.drawMirror_gpr (s : State) : (s.drawMirror).gpr = s.gpr := rfl
@[simp] theorem State.drawMirror_pc (s : State) : (s.drawMirror).pc = s.pc := rfl
@[simp] theorem State.drawMirror_pending (s : State) : (s.drawMirror).pending = s.pending := rfl
@[simp] theorem State.drawMirror_csr (s : State) : (s.drawMirror).csr = s.csr := rfl
@[simp] theorem State.drawMirror_mirror (s : State) : (s.drawMirror).mirror = fitImage s.cfg.nrGpr.count (Config.freeImage s.draws) := rfl
@[simp] theorem State.drawMirror_boot (s : State) : (s.drawMirror).boot = s.boot := rfl
@[simp] theorem State.drawMirror_cosim (s : State) : (s.drawMirror).cosim = s.cosim := rfl
@[simp] theorem State.drawMirror_halted (s : State) : (s.drawMirror).halted = s.halted := rfl
@[simp] theorem State.drawMirror_haltReason (s : State) : (s.drawMirror).haltReason = s.haltReason := rfl
@[simp] theorem State.drawMirror_mem (s : State) : (s.drawMirror).mem = s.mem := rfl
@[simp] theorem State.drawMirror_ref (s : State) : (s.drawMirror).ref = s.ref := rfl
@[simp] theorem State.drawMirror_busA (s : State) : (s.drawMirror).busA = s.busA := rfl
@[simp] theorem State.drawMirror_busB (s : State) : (s.drawMirror).busB = s.busB := rfl
@[simp] theorem State.drawMirror_queue (s : State) : (s.drawMirror).queue = s.queue := rfl
@[simp] theorem State.drawMirror_callFates (s : State) : (s.drawMirror).callFates = s.callFates := rfl
@[simp] theorem State.drawMirror_draws (s : State) : (s.drawMirror).draws = s.draws + 1 := rfl
@[simp] theorem State.drawMirror_response (s : State) : (s.drawMirror).response = s.response := rfl
@[simp] theorem State.drawMirror_trace (s : State) : (s.drawMirror).trace = s.trace := rfl

@[simp] theorem State.resetNow_cfg (s : State) (d : ResetDraws) : (s.resetNow d).cfg = s.cfg := rfl
@[simp] theorem State.resetNow_gpr (s : State) (d : ResetDraws) : (s.resetNow d).gpr = (fitRegs s.cfg.nrGpr.count d.gpr).set 0 0 := rfl
@[simp] theorem State.resetNow_pc (s : State) (d : ResetDraws) : (s.resetNow d).pc = s.cfg.resetVector := rfl
@[simp] theorem State.resetNow_pending (s : State) (d : ResetDraws) : (s.resetNow d).pending = false := rfl
@[simp] theorem State.resetNow_csr (s : State) (d : ResetDraws) : (s.resetNow d).csr = Csrs.reset := rfl
@[simp] theorem State.resetNow_mirror (s : State) (d : ResetDraws) : (s.resetNow d).mirror = fitImage s.cfg.nrGpr.count d.mirror := rfl
@[simp] theorem State.resetNow_boot (s : State) (d : ResetDraws) : (s.resetNow d).boot = fitImage s.cfg.nrGpr.count d.boot := rfl
@[simp] theorem State.resetNow_cosim (s : State) (d : ResetDraws) : (s.resetNow d).cosim = .detached := rfl
@[simp] theorem State.resetNow_halted (s : State) (d : ResetDraws) : (s.resetNow d).halted = false := rfl
@[simp] theorem State.resetNow_haltReason (s : State) (d : ResetDraws) : (s.resetNow d).haltReason = none := rfl
@[simp] theorem State.resetNow_mem (s : State) (d : ResetDraws) : (s.resetNow d).mem = s.mem := rfl
@[simp] theorem State.resetNow_ref (s : State) (d : ResetDraws) : (s.resetNow d).ref = s.ref := rfl
@[simp] theorem State.resetNow_busA (s : State) (d : ResetDraws) : (s.resetNow d).busA = 0 := rfl
@[simp] theorem State.resetNow_busB (s : State) (d : ResetDraws) : (s.resetNow d).busB = 0 := rfl
@[simp] theorem State.resetNow_queue (s : State) (d : ResetDraws) : (s.resetNow d).queue = s.queue := rfl
@[simp] theorem State.resetNow_callFates (s : State) (d : ResetDraws) : (s.resetNow d).callFates = s.callFates := rfl
@[simp] theorem State.resetNow_draws (s : State) (d : ResetDraws) : (s.resetNow d).draws = s.draws := rfl
@[simp] theorem State.resetNow_response (s : State) (d : ResetDraws) : (s.resetNow d).response = none := rfl
@[simp] theorem State.resetNow_trace (s : State) (d : ResetDraws) : (s.resetNow d).trace = [] := rfl

@[simp] theorem State.compared_cfg (s : State) (p : Word) : (s.compared p).cfg = s.cfg := rfl
@[simp] theorem State.compared_gpr (s : State) (p : Word) : (s.compared p).gpr = s.gpr := rfl
@[simp] theorem State.compared_pc (s : State) (p : Word) : (s.compared p).pc = s.pc := rfl
@[simp] theorem State.compared_pending (s : State) (p : Word) : (s.compared p).pending = s.pending := rfl
@[simp] theorem State.compared_csr (s : State) (p : Word) : (s.compared p).csr = s.csr := rfl
@[simp] theorem State.compared_mirror (s : State) (p : Word) : (s.compared p).mirror = s.mirror := rfl
@[simp] theorem State.compared_boot (s : State) (p : Word) : (s.compared p).boot = s.boot := rfl
@[simp] theorem State.compared_cosim (s : State) (p : Word) : (s.compared p).cosim = s.cosim := rfl
@[simp] theorem State.compared_halted (s : State) (p : Word) : (s.compared p).halted = s.halted := rfl
@[simp] theorem State.compared_haltReason (s : State) (p : Word) : (s.compared p).haltReason = s.haltReason := rfl
@[simp] theorem State.compared_mem (s : State) (p : Word) : (s.compared p).mem = s.mem := rfl
@[simp] theorem State.compared_ref (s : State) (p : Word) : (s.compared p).ref = s.ref := rfl
@[simp] theorem State.compared_busA (s : State) (p : Word) : (s.compared p).busA = s.busA := rfl
@[simp] theorem State.compared_busB (s : State) (p : Word) : (s.compared p).busB = s.busB := rfl
@[simp] theorem State.compared_queue (s : State) (p : Word) : (s.compared p).queue = s.queue := rfl
@[simp] theorem State.compared_callFates (s : State) (p : Word) : (s.compared p).callFates = s.callFates := rfl
@[simp] theorem State.compared_draws (s : State) (p : Word) : (s.compared p).draws = s.draws := rfl
@[simp] theorem State.compared_response (s : State) (p : Word) : (s.compared p).response = some ⟨.ok, false, if mismatchesOf s p = [] then 1 else 0, mismatchesOf s p⟩ := rfl
@[simp] theorem State.compared_trace (s : State) (p : Word) : (s.compared p).trace = s.trace := rfl

@[simp] theorem State.offerCommand_cfg (s : State) (w : Word) : (s.offerCommand w).cfg = s.cfg := rfl
@[simp] theorem State.offerCommand_gpr (s : State) (w : Word) : (s.offerCommand w).gpr = s.gpr := rfl
@[simp] theorem State.offerCommand_pc (s : State) (w : Word) : (s.offerCommand w).pc = s.pc := rfl
@[simp] theorem State.offerCommand_pending (s : State) (w : Word) : (s.offerCommand w).pending = s.pending := rfl
@[simp] theorem State.offerCommand_csr (s : State) (w : Word) : (s.offerCommand w).csr = s.csr := rfl
@[simp] theorem State.offerCommand_mirror (s : State) (w : Word) : (s.offerCommand w).mirror = s.mirror := rfl
@[simp] theorem State.offerCommand_boot (s : State) (w : Word) : (s.offerCommand w).boot = s.boot := rfl
@[simp] theorem State.offerCommand_cosim (s : State) (w : Word) : (s.offerCommand w).cosim = s.cosim := rfl
@[simp] theorem State.offerCommand_halted (s : State) (w : Word) : (s.offerCommand w).halted = s.halted := rfl
@[simp] theorem State.offerCommand_haltReason (s : State) (w : Word) : (s.offerCommand w).haltReason = s.haltReason := rfl
@[simp] theorem State.offerCommand_mem (s : State) (w : Word) : (s.offerCommand w).mem = s.mem := rfl
@[simp] theorem State.offerCommand_ref (s : State) (w : Word) : (s.offerCommand w).ref = s.ref := rfl
@[simp] theorem State.offerCommand_busA (s : State) (w : Word) : (s.offerCommand w).busA = s.busA := rfl
@[simp] theorem State.offerCommand_busB (s : State) (w : Word) : (s.offerCommand w).busB = s.busB := rfl
@[simp] theorem State.offerCommand_queue (s : State) (w : Word) : (s.offerCommand w).queue = .command w (offeredA w s) s.busB :: s.queue := rfl
@[simp] theorem State.offerCommand_callFates (s : State) (w : Word) : (s.offerCommand w).callFates = s.callFates := rfl
@[simp] theorem State.offerCommand_draws (s : State) (w : Word) : (s.offerCommand w).draws = s.draws := rfl
@[simp] theorem State.offerCommand_response (s : State) (w : Word) : (s.offerCommand w).response = s.response := rfl
@[simp] theorem State.offerCommand_trace (s : State) (w : Word) : (s.offerCommand w).trace = s.trace := rfl

@[simp] theorem State.drawBytes_cfg (s : State) (n : Nat) : (s.drawBytes n).2.cfg = s.cfg := rfl
@[simp] theorem State.drawBytes_gpr (s : State) (n : Nat) : (s.drawBytes n).2.gpr = s.gpr := rfl
@[simp] theorem State.drawBytes_pc (s : State) (n : Nat) : (s.drawBytes n).2.pc = s.pc := rfl
@[simp] theorem State.drawBytes_pending (s : State) (n : Nat) : (s.drawBytes n).2.pending = s.pending := rfl
@[simp] theorem State.drawBytes_csr (s : State) (n : Nat) : (s.drawBytes n).2.csr = s.csr := rfl
@[simp] theorem State.drawBytes_mirror (s : State) (n : Nat) : (s.drawBytes n).2.mirror = s.mirror := rfl
@[simp] theorem State.drawBytes_boot (s : State) (n : Nat) : (s.drawBytes n).2.boot = s.boot := rfl
@[simp] theorem State.drawBytes_cosim (s : State) (n : Nat) : (s.drawBytes n).2.cosim = s.cosim := rfl
@[simp] theorem State.drawBytes_halted (s : State) (n : Nat) : (s.drawBytes n).2.halted = s.halted := rfl
@[simp] theorem State.drawBytes_haltReason (s : State) (n : Nat) : (s.drawBytes n).2.haltReason = s.haltReason := rfl
@[simp] theorem State.drawBytes_mem (s : State) (n : Nat) : (s.drawBytes n).2.mem = s.mem := rfl
@[simp] theorem State.drawBytes_ref (s : State) (n : Nat) : (s.drawBytes n).2.ref = s.ref := rfl
@[simp] theorem State.drawBytes_busA (s : State) (n : Nat) : (s.drawBytes n).2.busA = s.busA := rfl
@[simp] theorem State.drawBytes_busB (s : State) (n : Nat) : (s.drawBytes n).2.busB = s.busB := rfl
@[simp] theorem State.drawBytes_queue (s : State) (n : Nat) : (s.drawBytes n).2.queue = s.queue := rfl
@[simp] theorem State.drawBytes_callFates (s : State) (n : Nat) : (s.drawBytes n).2.callFates = s.callFates := rfl
@[simp] theorem State.drawBytes_draws (s : State) (n : Nat) : (s.drawBytes n).2.draws = s.draws + 1 := rfl
@[simp] theorem State.drawBytes_response (s : State) (n : Nat) : (s.drawBytes n).2.response = s.response := rfl
@[simp] theorem State.drawBytes_trace (s : State) (n : Nat) : (s.drawBytes n).2.trace = s.trace := rfl

@[simp] theorem State.offerGuestWord_cfg (s : State) (w : Word) : (s.offerGuestWord w).cfg = s.cfg := rfl
@[simp] theorem State.offerGuestWord_gpr (s : State) (w : Word) : (s.offerGuestWord w).gpr = s.gpr := rfl
@[simp] theorem State.offerGuestWord_pc (s : State) (w : Word) : (s.offerGuestWord w).pc = s.pc := rfl
@[simp] theorem State.offerGuestWord_pending (s : State) (w : Word) : (s.offerGuestWord w).pending = s.pending := rfl
@[simp] theorem State.offerGuestWord_csr (s : State) (w : Word) : (s.offerGuestWord w).csr = s.csr := rfl
@[simp] theorem State.offerGuestWord_mirror (s : State) (w : Word) : (s.offerGuestWord w).mirror = s.mirror := rfl
@[simp] theorem State.offerGuestWord_boot (s : State) (w : Word) : (s.offerGuestWord w).boot = s.boot := rfl
@[simp] theorem State.offerGuestWord_cosim (s : State) (w : Word) : (s.offerGuestWord w).cosim = .attached := rfl
@[simp] theorem State.offerGuestWord_halted (s : State) (w : Word) : (s.offerGuestWord w).halted = s.halted := rfl
@[simp] theorem State.offerGuestWord_haltReason (s : State) (w : Word) : (s.offerGuestWord w).haltReason = s.haltReason := rfl
@[simp] theorem State.offerGuestWord_mem (s : State) (w : Word) : (s.offerGuestWord w).mem = s.mem := rfl
@[simp] theorem State.offerGuestWord_ref (s : State) (w : Word) : (s.offerGuestWord w).ref = { s.ref with mem := writeBytesWrap s.ref.mem s.ref.pc (leBytes 4 w) } := rfl
@[simp] theorem State.offerGuestWord_busA (s : State) (w : Word) : (s.offerGuestWord w).busA = s.busA := rfl
@[simp] theorem State.offerGuestWord_busB (s : State) (w : Word) : (s.offerGuestWord w).busB = s.busB := rfl
@[simp] theorem State.offerGuestWord_queue (s : State) (w : Word) : (s.offerGuestWord w).queue = .command (encode .step) 1 s.busB :: s.queue := rfl
@[simp] theorem State.offerGuestWord_callFates (s : State) (w : Word) : (s.offerGuestWord w).callFates = .complete :: s.callFates := rfl
@[simp] theorem State.offerGuestWord_draws (s : State) (w : Word) : (s.offerGuestWord w).draws = s.draws := rfl
@[simp] theorem State.offerGuestWord_response (s : State) (w : Word) : (s.offerGuestWord w).response = s.response := rfl
@[simp] theorem State.offerGuestWord_trace (s : State) (w : Word) : (s.offerGuestWord w).trace = s.trace := rfl

end Sys2Proof.Machine
end

