-- ==== Sys2Proof/WellFormed.lean ====
section
/-! DEFINITION. Which instructions an instance admits. Lengths, kinds and unused fields are settled by the types and
the decoder; what is left depends on NR_GPR (30_encoding.md R66). -/

namespace Sys2Proof

/-- `reg < NR_GPR` (30_encoding.md R66); the same of the reference's register file for `csrw` (10_state.md R20). -/
def Instr.wellFormed (c : Config) : Instr → Bool
  | .gprRead reg | .gprWrite reg => decide (reg.toNat < c.nrGpr.count)
  | .csrw _ rs1 => decide (rs1.toNat < c.nrGpr.count)
  | .check _ _ | .translate _ _ | .ifetch _ | .read _ | .write _ | .raise | .query | .csrGet _ | .csrSet _
  | .attach | .detach | .checkRegs | .pcRead | .pcWrite | .irqEdge | .step => true

end Sys2Proof
end

