-- ==== Sys2Proof/Tests/Slice0.lean ====
section
/-! SUPPORT. Tests against the vectors of 95_test_vectors.md, the smoke test of WellFormed, and a witness for the
hypotheses of every statement that has some. Every expected value is the spec's. -/

namespace Sys2Proof.Tests

open Sys2Proof.Machine

/-! ### Small states -/

/-- `mem32[a] = v` of 95_test_vectors.md. -/
def mem32 (m : Memory) (a : Nat) (v : Word) : Memory := writeBytes m a (leBytes 4 v)

/-- Table set T of 95_test_vectors.md. -/
def tables : State :=
  { State.reset with
    csr := { Csrs.reset with satp := 0x80080010#32 }
    mem := mem32 (mem32 [] 0x80010400 0x20004401#32) 0x80011004 0x20048CC7#32 }

/-- Table set T with one more word in memory. -/
def tablesWith (a : Nat) (v : Word) : State := { tables with mem := mem32 tables.mem a v }

/-- A state with operands on the buses. -/
def on (s : State) (a b : Word) : State := { s with busA := a, busB := b }

/-- The state after reset with trap CSRs as given. -/
def trapState (mstatus mtvec : Word) (pending : Bool) : State :=
  { State.reset with csr := { Csrs.reset with mstatus := mstatus, mtvec := mtvec }, pending := pending }

/-- Sixteen registers. -/
def small : State :=
  State.powerOn { Config.standard with nrGpr := .n16 } ResetDraws.zero []
    (zeroEngine { Config.standard with nrGpr := .n16 })

/-- An instance assumed REF-RV. -/
def rv : State :=
  State.powerOn { Config.standard with ref := .refRV } ResetDraws.zero [] (zeroEngine Config.standard)

/-- An instance with one device window. -/
def withDevice : State :=
  State.powerOn { Config.standard with devices := [⟨0x10000000, 0x1000⟩] } ResetDraws.zero []
    (zeroEngine Config.standard)

/-- The next state of an outcome, if it is one. -/
def nextOf (o : Host.Outcome State Fault Refusal) : Option State :=
  match o with
  | .next s => some s
  | .fault _ => none
  | .refused _ => none

/-- What an answer of value `v` looks like. -/
def ok (v : Word) : Option Response := some ⟨.ok, false, v, []⟩

/-- What a Fatal response looks like. -/
def fatal (f : Fault) : Option Response := some ⟨.fatal f, false, 0, []⟩

/-! ### WellFormed refuses (30_encoding.md R66) -/

theorem test_reg16_of_16_ill_formed :
    (Instr.gprRead 16#5).wellFormed small.cfg = false ∧ (Instr.gprRead 15#5).wellFormed small.cfg = true := by decide

theorem test_write31_of_16_ill_formed : (Instr.gprWrite 31#5).wellFormed small.cfg = false := by decide

theorem test_csrw_x16_of_16_ill_formed : (Instr.csrw 0x300#12 16#5).wellFormed small.cfg = false := by decide

/-! ### Decoding: words of V3, V6, V7, V8, V9 -/

theorem test_decode_walker_words :
    decode .command 0x000000C1#32 = .ok (.check .write .b1) ∧ decode .command 0x00000222#32 = .ok (.translate .read .b4) ∧
    decode .command 0x00000203#32 = .ok (.ifetch .b4) ∧ decode .command 0x00000084#32 = .ok (.read .b1) ∧
    decode .command 0x00000105#32 = .ok (.write .b2) := by decide

theorem test_decode_trap_words :
    decode .command 0x00000006#32 = .ok .raise ∧ decode .command 0x00000007#32 = .ok .query ∧
    decode .command 0x00000011#32 = .ok .irqEdge := by decide

theorem test_decode_csr_words :
    decode .command 0x001A1008#32 = .ok (.csrGet 0x342#12) ∧ decode .command 0x000C0009#32 = .ok (.csrSet 0x180#12) := by
  decide

theorem test_decode_port_words :
    decode .command 0x0280000D#32 = .ok (.gprRead 5#5) ∧ decode .command 0x0300000E#32 = .ok (.gprWrite 6#5) ∧
    decode .command 0x0000000F#32 = .ok .pcRead ∧ decode .command 0x00000010#32 = .ok .pcWrite := by decide

theorem test_decode_mirror_words :
    decode .command 0x0000000A#32 = .ok .attach ∧ decode .command 0x0000000B#32 = .ok .detach ∧
    decode .command 0x0000000C#32 = .ok .checkRegs ∧ decode .command 0x00000012#32 = .ok .step := by decide

theorem test_decode_csrw_word : decode .reference 0x18031073#32 = .ok (.csrw 0x180#12 6#5) := by decide

theorem test_decode_refuses_V8 :
    decode .command 0x00000000#32 = .error .reservedOp ∧ decode .command 0x00000013#32 = .error .reservedOp ∧
    decode .command 0x0000001F#32 = .error .reservedOp ∧ decode .command 0x10000007#32 = .error .reservedBits ∧
    decode .command 0x00000404#32 = .error .lengthEight ∧ decode .command 0x00000004#32 = .error .badLength ∧
    decode .command 0x00000184#32 = .error .badLength ∧ decode .command 0x00000262#32 = .error .badKind ∧
    decode .command 0x00000223#32 = .error .unusedField ∧ decode .command 0x00000086#32 = .error .unusedField ∧
    decode .command 0x00180007#32 = .error .unusedField ∧ decode .command 0x30009073#32 = .error .reservedBits := by
  decide

theorem test_encode_words :
    encode (.check .ifetch .b4) = 0x00000201#32 ∧ encode (.csrGet 0x305#12) = 0x00182808#32 ∧
    encode (.gprRead 31#5) = 0x0F80000D#32 ∧ encode (.csrw 0x341#12 3#5) = 0x34119073#32 := by decide

theorem test_table_word_reads_both_ports :
    decodeTableWord 32 0x12 = some .step ∧ decodeTableWord 32 0x1073 = some (.csrw 0#12 0#5) ∧
    decodeTableWord 32 0x13 = none := by decide

/-! ### One step of each instruction -/

theorem test_check_V1 :
    responseOf (exec (.check .write .b4) { State.reset with csr := { Csrs.reset with satp := 0x7FFFFFFF#32 } }) = ok 0 ∧
    responseOf (exec (.check .read .b4) { State.reset with csr := { Csrs.reset with satp := 0x80000000#32 } }) = ok 1 := by
  decide

theorem test_translate_V2_results :
    responseOf (exec (.translate .read .b4) (on tables 0x40001234#32 0)) = ok 0x80123234#32 ∧
    responseOf (exec (.translate .read .b4) (on (tablesWith 0x80010804 0x200000CF#32) 0x80401ABC#32 0)) =
      ok 0x80001ABC#32 ∧
    responseOf (exec (.translate .read .b4) (on (tablesWith 0x80010800 0xFFF0000F#32) 0x80000000#32 0)) =
      ok 0xFFC00000#32 ∧
    responseOf (exec (.translate .read .b4) (on (tablesWith 0x80011004 0xFFFFFC07#32) 0x40001234#32 0)) =
      ok 0xFFFFF234#32 := by
  decide

theorem test_translate_V2_faults :
    responseOf (exec (.translate .read .b4) (on tables 0x40001FFD#32 0)) = fatal .crossPage ∧
    responseOf (exec (.translate .read .b4) (on (tablesWith 0x80010800 0x200004CF#32) 0x80000000#32 0)) =
      fatal .misaligned ∧
    responseOf (exec (.translate .ifetch .b4) (on (tablesWith 0x80011004 0x20048C09#32) 0x40001234#32 0)) =
      fatal (.invalid .l2RW) ∧
    responseOf (exec (.translate .read .b4) (on (tablesWith 0x80010400 0x00004401#32) 0x40001234#32 0)) =
      fatal .physOutOfRange := by
  decide

theorem test_ifetch_V3_bare_page_crossing :
    responseOf (exec (.ifetch .b4) (on { State.reset with
      mem := mem32 (mem32 [] 0x80000FFC 0x44332211#32) 0x80001000 0x88776655#32 } 0x80000FFE#32 0)) =
      ok 0x66554433#32 := by decide

theorem test_read_V3_zero_extends :
    responseOf (exec (.read .b2) (on { State.reset with mem := mem32 [] 0x80000200 0x8081F2F3#32 } 0x80000202#32 0)) =
      ok 0x00008081#32 := by decide

theorem test_write_V3_superpage_without_w :
    (nextOf (exec (.write .b4) (on (tablesWith 0x80010804 0x2000000B#32) 0x80401ABC#32 0x11223344#32))).map
      (fun t => readBytes t.mem 0x80001ABC 4) = some [0x44#8, 0x33#8, 0x22#8, 0x11#8] := by decide

theorem test_write_V3_two_bytes :
    (nextOf (exec (.write .b2) (on State.reset 0x80000100#32 0x1234ABCD#32))).map (fun t => t.mem) =
      some [(0x80000100, 0xCD#8), (0x80000101, 0xAB#8)] := by decide

/-- The last word of the 32-bit physical space is a device's, the bytes past it no one's (20_memory.md R44, R46). -/
theorem test_device_at_the_top :
    let c := { Config.standard with devices := [⟨0xFFFFF000, 0x2000⟩] }
    inDevice c 0xFFFFFFFC#32 4 = true ∧ inDevice c 0xFFFFFFFE#32 4 = false := by decide

theorem test_raise_V4 :
    (nextOf (exec .raise (on (trapState 0xFFFFFFF7#32 0x80000100#32 false) 11#32 0x80000010#32))).map (fun t => t.csr) =
      some ⟨0xFFFFFF77#32, 0x80000100#32, 0x80000010#32, 11#32, 0, 0⟩ := by decide

theorem test_raise_answers_whole_mtvec :
    responseOf (exec .raise (on (trapState 0x1808#32 0x80000103#32 false) 7#32 0x80000041#32)) = ok 0x80000103#32 := by
  decide

theorem test_query_V5 :
    responseOf (exec .query (trapState 0x8#32 0x80000100#32 true)) = some ⟨.ok, true, 0x80000007#32, []⟩ ∧
    (nextOf (exec .query (trapState 0x8#32 0x80000100#32 true))).map (fun t => t.pending) = some false ∧
    (nextOf (exec .query (trapState 0x80#32 0x80000100#32 true))).map (fun t => t.pending) = some true ∧
    (nextOf (exec .query (trapState 0x8#32 0#32 true))).map (fun t => t.pending) = some true := by decide

theorem test_irq_V5 : (nextOf (exec .irqEdge State.reset)).map (fun t => t.pending) = some true := by decide

theorem test_csr_V6 :
    (nextOf (exec (.csrSet 0x305#12) (on State.reset 0x80000101#32 0))).map (fun t => t.csr.mtvec) =
      some 0x80000101#32 ∧
    responseOf (exec (.csrGet 0x180#12) tables) = ok 0x80080010#32 ∧
    responseOf (exec (.csrGet 0x304#12) State.reset) = fatal .unknownId ∧
    (nextOf (exec (.csrSet 0x344#12) (on State.reset 5#32 0))).map (fun t => t.csr) = some Csrs.reset := by decide

theorem test_gpr_V7 :
    (nextOf (exec (.gprWrite 6#5) (on State.reset 0xDEADBEEF#32 0))).map (fun t => readGpr t.gpr 6) =
      some 0xDEADBEEF#32 ∧
    responseOf (exec (.gprWrite 0#5) (on State.reset 1#32 0)) = some ⟨.refused .x0Write, false, 0, []⟩ ∧
    responseOf (exec (.gprRead 16#5) small) = some ⟨.refused .illegalCommand, false, 0, []⟩ ∧
    responseOf (exec (.gprRead 31#5) State.reset) = ok 0 := by decide

theorem test_pc_V7 :
    responseOf (exec .pcRead State.reset) = ok 0x80000000#32 ∧
    (nextOf (exec .pcWrite (on State.reset 0x80000101#32 0))).map (fun t => t.pc) = some 0x80000101#32 := by decide

/-- V10 row 1 on an instance whose reference is REF-RV: the scratch image, the mode, and that the mirror is live. -/
theorem test_attach_V10 :
    (nextOf (exec .attach { rv with csr := { Csrs.reset with mstatus := 0x1800#32, mtvec := 0x80000100#32 } })).map
      (fun t => (t.boot.gpr.take 8, t.boot.pc, t.cosim, t.mirror.pc, t.trace.length)) =
      some ([0, 0x1800#32, 0x80000100#32, 0, 0, 0, 0, 0], 0x80000000#32, .attached, 0x80000000#32, 7) := by decide +kernel

theorem test_attach_V10_outside :
    responseOf (exec .attach { rv with cfg := { rv.cfg with resetVector := 0x7FFFFFF0#32 } }) = fatal .physOutOfRange := by
  decide

theorem test_detach_V10 :
    (nextOf (exec .detach { rv with cosim := .attached })).map (fun t => t.cosim) = some .detached := by decide

/-- V10 row 4: three records in order. -/
theorem test_checkRegs_V10 :
    responseOf (exec .checkRegs (on { State.reset with
      gpr := writeGpr (writeGpr State.reset.gpr 3 8#32) 9 10#32
      pc := 0x80000004#32
      mirror := ⟨writeGpr (writeGpr State.reset.gpr 3 7#32) 9 9#32, 0x80000000#32⟩ } 0 0x11111111#32)) =
    some ⟨.ok, false, 0,
      [⟨"gp", 3, 8#32, 7#32, 0x11111111#32⟩, ⟨"s1", 9, 10#32, 9#32, 0x11111111#32⟩,
       ⟨"pc", 32, 0x80000004#32, 0x80000000#32, 0x11111111#32⟩]⟩ := by decide

theorem test_step_V10_detached :
    responseOf (exec .step (on State.reset 3#32 0)) = ok 1 ∧
    responseOf (exec .step (on State.reset 0#32 0)) = some ⟨.refused .badCount, false, 0, []⟩ := by decide

/-- P5, its first instruction: the reference's pc moves on by 4. -/
theorem test_csrw_P5 :
    (nextOf (exec (.csrw 0x300#12 1#5) { rv with ref := { rv.ref with pc := 0x80000000#32 } })).map (fun t => t.ref.pc) =
      some 0x80000004#32 := by decide

/-- The very next step runs an offered word, at either port. -/
theorem test_offered_words_run :
    (nextOf (step (State.reset.withFetchWord 32 0x0F))).map (fun t => t.response) = some (ok 0x80000000#32) ∧
    (nextOf (step (State.reset.withFetchWord 32 0x12))).map (fun t => t.response) = some (ok 1) ∧
    (nextOf (step (rv.withFetchWord 32 0x30009073))).map (fun t => t.ref.pc) = some 4#32 ∧
    (nextOf (step (State.reset.withFetchWord 32 0x30009073))).isSome = true := by decide +kernel

/-- A black box is bound by no law (42_cosim.md R109): what csrw leaves there is a free draw. -/
theorem test_csrw_black_box : exec (.csrw 0x300#12 1#5) State.reset = .next State.reset.drawEngine := rfl

theorem test_reset_meets_invariant : State.reset.Inv := by decide

/-! ### Witnesses: states and operands that meet the hypotheses of the statements -/

/-- A state with these inputs to come. -/
def queued (s : State) (es : List Event) : State := { s with queue := es }

/-- A halted block. -/
def haltedState : State := State.reset.haltWith .unknownId

theorem witness_DecodedWordIsTheInstructionsWord : decode .command 0x0F80000E#32 = .ok (.gprWrite 31#5) := by decide

theorem witness_BootstrapWordsInMemory : Memory.wf tables.mem := by decide

theorem witness_IllegalCommandsAreRefused :
    (queued State.reset [.command 0x404#32 0 0]).queue = .command 0x404#32 0 0 :: [] ∧
    (queued State.reset [.command 0x404#32 0 0]).halted = false ∧
    (queued haltedState [.command 0x11#32 0 0]).queue = .command 0x11#32 0 0 :: [] ∧
    (queued haltedState [.command 0x11#32 0 0]).halted = true := by decide

theorem witness_StepRunsTheDecodedCommand :
    (queued tables [.command 0x222#32 0x40001234#32 0]).queue = .command 0x222#32 0x40001234#32 0 :: [] ∧
    tables.halted = false ∧ decode .command 0x222#32 = .ok (.translate .read .b4) := by decide

/-- The bootstrap's first word at the reference's pc. -/
def atCsrw : State := { rv with ref := { rv.ref with mem := mem32 [] 0 0x30009073#32 } }

theorem witness_StepRunsTheGuestWord :
    decode .reference (refFetch atCsrw.ref) = .ok (.csrw 0x300#12 1#5) ∧
    rv.Inv ∧ rv.CallsComplete ∧ rv.halted = false ∧ State.reset.queue = [] := by decide

/-- A step in which the reference changes: an attached STEP. -/
theorem witness_StepRunsTheGuestWord_moves :
    let s := queued { atCsrw with cosim := .attached } [.command 0x12#32 1#32 0]
    (nextOf (step s)).map (fun t => t.ref.pc) = some 4#32 ∧ s.ref.pc ≠ 4#32 := by decide +kernel

theorem witness_OfferedCommandIsTheNextInstruction :
    State.reset.halted = false ∧ (Instr.csrGet 0xFFF#12).port = .command ∧ Instr.csrGet 0xFFF#12 ≠ .step := by decide

theorem witness_CheckDecidesByModeAlone :
    (0x7FFFFFFF#32).toNat < 2 ^ 31 ∧ 2 ^ 31 ≤ (0x80000000#32).toNat := by decide

theorem witness_PteReadIsFourBytesOrNothing :
    InGuestMemory Config.standard (0x87FFFFFC#32).toNat 4 ∧ ¬ InGuestMemory Config.standard (0x87FFFFFD#32).toNat 4 := by
  decide

/-- A superpage that only X makes a leaf, read at the last word of a page. -/
theorem witness_TranslateThroughASuperpage :
    let s := on (tablesWith 0x80010800 0x20000009#32) 0x80000FFC#32 0
    s.busA.toNat % 4096 + AccessLen.b4.bytes ≤ 4096 ∧
    pteRead s (level1Addr s.csr.satp s.busA) = some 0x20000009#32 ∧
    (0x20000009#32).getLsbD 0 = true ∧ ((0x20000009#32).getLsbD 1 = true ∨ (0x20000009#32).getLsbD 3 = true) ∧
    (0x20000009#32).toNat / 2 ^ 10 % 2 ^ 10 = 0 := by decide

theorem witness_TranslateThroughTwoLevels :
    let s := on tables 0x40001FFC#32 0
    s.busA.toNat % 4096 + AccessLen.b4.bytes ≤ 4096 ∧
    pteRead s (level1Addr s.csr.satp s.busA) = some 0x20004401#32 ∧
    (0x20004401#32).getLsbD 0 = true ∧ (0x20004401#32).getLsbD 1 = false ∧ (0x20004401#32).getLsbD 3 = false ∧
    pteRead s (level2Addr 0x20004401#32 s.busA) = some 0x20048CC7#32 ∧
    (0x20048CC7#32).getLsbD 0 = true ∧ (0x20048CC7#32).getLsbD 1 = true ∧ (0x20048CC7#32).getLsbD 2 = true := by decide

theorem witness_TranslateHaltsInOrder_crossPage : 4096 < (on tables 0x40001FFD#32 0).busA.toNat % 4096 + AccessLen.b4.bytes := by
  decide

theorem witness_TranslateHaltsInOrder_noRoot :
    let s := on { tables with csr := { tables.csr with satp := 0x80000000#32 } } 0x40001FFC#32 0
    s.busA.toNat % 4096 + AccessLen.b4.bytes ≤ 4096 ∧ pteRead s (level1Addr s.csr.satp s.busA) = none := by decide

theorem witness_TranslateHaltsInOrder_level1 :
    let s := on (tablesWith 0x80010800 0x200004CE#32) 0x80000000#32 0
    let t := on (tablesWith 0x80010800 0x200004CF#32) 0x80000000#32 0
    s.busA.toNat % 4096 + AccessLen.b4.bytes ≤ 4096 ∧
    pteRead s (level1Addr s.csr.satp s.busA) = some 0x200004CE#32 ∧ (0x200004CE#32).getLsbD 0 = false ∧
    pteRead t (level1Addr t.csr.satp t.busA) = some 0x200004CF#32 ∧ (0x200004CF#32).getLsbD 0 = true ∧
    ((0x200004CF#32).getLsbD 1 = true ∨ (0x200004CF#32).getLsbD 3 = true) ∧
    (0x200004CF#32).toNat / 2 ^ 10 % 2 ^ 10 ≠ 0 := by decide

theorem witness_TranslateHaltsInOrder_noTable :
    let s := on (tablesWith 0x80010400 0x00004401#32) 0x40001234#32 0
    pteRead s (level1Addr s.csr.satp s.busA) = some 0x00004401#32 ∧ (0x00004401#32).getLsbD 0 = true ∧
    (0x00004401#32).getLsbD 1 = false ∧ (0x00004401#32).getLsbD 3 = false ∧
    pteRead s (level2Addr 0x00004401#32 s.busA) = none := by decide

theorem witness_TranslateHaltsInOrder_level2 :
    let s := on (tablesWith 0x80011004 0x20048C06#32) 0x40001234#32 0
    let t := on (tablesWith 0x80011004 0x20048C03#32) 0x40001234#32 0
    pteRead s (level1Addr s.csr.satp s.busA) = some 0x20004401#32 ∧
    pteRead s (level2Addr 0x20004401#32 s.busA) = some 0x20048C06#32 ∧ (0x20048C06#32).getLsbD 0 = false ∧
    pteRead t (level2Addr 0x20004401#32 t.busA) = some 0x20048C03#32 ∧ (0x20048C03#32).getLsbD 0 = true ∧
    ((0x20048C03#32).getLsbD 1 = false ∨ (0x20048C03#32).getLsbD 2 = false) := by decide

theorem witness_WalkIgnoresKindModeAndAsid :
    (0x7FC80010#32).toNat % 2 ^ 22 = tables.csr.satp.toNat % 2 ^ 22 := by decide

theorem witness_PhysicalAddressOfAnAccess :
    State.reset.csr.satp.toNat < 2 ^ 31 ∧ 2 ^ 31 ≤ tables.csr.satp.toNat := by decide

/-- Under translation, to the last word of the page. -/
theorem witness_LoadsAnswerTheBytes :
    (physAddr (on tables 0x40001FFC#32 0) 0x40001FFC#32 .b4).result = .ok 0x80123FFC#32 ∧
    InGuestMemory tables.cfg (0x80123FFC#32).toNat AccessLen.b4.bytes := ⟨rfl, by decide⟩

/-- Bare, to the last word of guest memory. -/
theorem witness_WriteStoresItsBytesOnly :
    State.reset.MemFits ∧ (physAddr (on State.reset 0x87FFFFFC#32 1) 0x87FFFFFC#32 .b4).result = .ok 0x87FFFFFC#32 ∧
    InGuestMemory State.reset.cfg (0x87FFFFFC#32).toNat AccessLen.b4.bytes := ⟨by decide, rfl, by decide⟩

/-- Under translation, to the last word of a page: the store hits neither PTE, so its virtual address stays. -/
theorem witness_StoredBytesAreLoaded :
    let s := on tables 0x40001FFC#32 0x1234ABCD#32
    s.MemFits ∧ (physAddr s s.busA .b4).result = .ok 0x80123FFC#32 ∧
    InGuestMemory s.cfg (0x80123FFC#32).toNat AccessLen.b4.bytes ∧
    (physAddr s s.busA .b4).reads = [0x80010400#32, 0x80011004#32] ∧
    ∀ a ∈ [0x80010400#32, 0x80011004#32],
      a.toNat + 4 ≤ (0x80123FFC#32).toNat ∨ (0x80123FFC#32).toNat + AccessLen.b4.bytes ≤ a.toNat :=
  ⟨by decide, rfl, by decide, rfl, by simp⟩

/-- And the WRITE answers a next state, in which that virtual address still leads there. -/
theorem witness_StoredBytesAreLoaded_next :
    (nextOf (exec (.write .b4) (on tables 0x40001FFC#32 0x1234ABCD#32))).map
      (fun t => (physAddr t 0x40001FFC#32 .b4).result.toOption) = some (some 0x80123FFC#32) := by decide

/-- Bare: no PTE is read. -/
theorem witness_StoredBytesAreLoaded_bare :
    let s := on State.reset 0x80000100#32 0x1234ABCD#32
    s.MemFits ∧ (physAddr s s.busA .b2).result = .ok 0x80000100#32 ∧ (physAddr s s.busA .b2).reads = [] ∧
    InGuestMemory s.cfg (0x80000100#32).toNat AccessLen.b2.bytes ∧
    (nextOf (exec (.write .b2) s)).isSome = true := ⟨by decide, rfl, rfl, by decide, by decide⟩

theorem witness_AccessesHaltWithoutEffect :
    (physAddr (on tables 0x40001FFE#32 0) 0x40001FFE#32 .b4).result = .error .crossPage ∧
    (physAddr (on State.reset 0x7FFFFFFE#32 0) 0x7FFFFFFE#32 .b4).result = .ok 0x7FFFFFFE#32 ∧
    ¬ InGuestMemory State.reset.cfg (0x7FFFFFFE#32).toNat AccessLen.b4.bytes ∧
    ¬ InDeviceWindow State.reset.cfg (0x7FFFFFFE#32).toNat AccessLen.b4.bytes := ⟨rfl, rfl, by decide, by decide⟩

theorem witness_DeviceAccessesComplete :
    (physAddr (on withDevice 0x10000FFC#32 0) 0x10000FFC#32 .b4).result = .ok 0x10000FFC#32 ∧
    ¬ InGuestMemory withDevice.cfg (0x10000FFC#32).toNat AccessLen.b4.bytes ∧
    InDeviceWindow withDevice.cfg (0x10000FFC#32).toNat AccessLen.b4.bytes := ⟨rfl, by decide, by decide⟩

theorem witness_QueryDeliversOrAnswersNone :
    let s := trapState 0x8#32 0x80000100#32 true
    s.csr.mstatus.getLsbD 3 = true ∧ s.csr.mtvec ≠ 0 ∧ s.pending = true ∧
    (State.reset.csr.mstatus.getLsbD 3 = false ∨ State.reset.csr.mtvec = 0 ∨ State.reset.pending = false) := by decide

theorem witness_TwoEdgesDeliverOnce :
    let q := [.command 0x11#32 0 0, .command 0x11#32 0 0, .command 0x07#32 0 0, .command 0x07#32 0 0]
    let s := queued (trapState 0x8#32 0x80000100#32 false) q
    s.halted = false ∧ s.csr.mstatus.getLsbD 3 = true ∧ s.csr.mtvec ≠ 0 ∧ s.queue = q := by decide

theorem witness_OnlyEdgesAndQueriesMoveTheLatch :
    (nextOf (exec .query (trapState 0x8#32 0x80000100#32 true))).map (fun t => t.pending) ≠
      some (trapState 0x8#32 0x80000100#32 true).pending ∧
    (nextOf (exec .query (trapState 0x8#32 0x80000100#32 true))).isSome = true := by decide

theorem witness_OnlyRaiseAndCsrSetMoveTheTrapUnit :
    exec .raise State.reset = .next ((State.reset.enterTrap 0 0).answer 0) ∧
    exec (.csrSet 0x300) State.reset = .next (State.reset.answer 0) := ⟨rfl, rfl⟩

theorem witness_EachRegisterHasItsWriters :
    exec .pcWrite (on State.reset 4#32 0) = .next ({ on State.reset 4#32 0 with pc := 4#32 }.answer 0) ∧
    (4#32 : Word) ≠ State.reset.pc := ⟨rfl, by decide⟩

theorem witness_CsrSetThenGet :
    let s := on State.reset 0xFFFFFFFF#32 0
    let t := { s with csr := { s.csr with mstatus := 0xFFFFFFFF#32 } }.answer 0
    exec (.csrSet 0x300) s = .next t ∧ exec (.csrGet 0x300) t = .next (t.answer 0xFFFFFFFF#32) ∧
    t.halted = false ∧ (t.answer 0xFFFFFFFF#32).halted = false := ⟨rfl, rfl, rfl, rfl⟩

theorem witness_GprReadAnswersTheRegister :
    (31#5).toNat < State.reset.cfg.nrGpr.count ∧ small.cfg.nrGpr.count ≤ (16#5).toNat := by decide

theorem witness_GprWriteStoresItsRegisterOnly :
    State.reset.FilesFit ∧ State.reset.X0Zero ∧ small.FilesFit ∧ small.X0Zero ∧
    small.cfg.nrGpr.count ≤ (16#5).toNat ∧ (on State.reset 1#32 0).busA ≠ 0 ∧ State.reset.busA = 0 ∧
    (15#5) ≠ 0 ∧ (15#5).toNat < small.cfg.nrGpr.count := by decide

theorem witness_CsrwWritesTheReferenceCsr :
    let s := { small with cfg := { small.cfg with ref := .refRV } }
    s.RefFits ∧ s.cfg.ref = .refRV ∧ (15#5).toNat < s.cfg.nrGpr.count ∧ s.cfg.nrGpr.count ≤ (16#5).toNat ∧
    State.reset.RefFits ∧ State.reset.cfg.ref = .blackBox := by decide

theorem witness_RefMemcpyCopiesExactly :
    State.reset.RefFits ∧ State.reset.CallsComplete ∧ [1#8, 2#8].length ≤ 2 ^ 32 ∧ [1#8, 2#8].length ≠ 3 ∧
    (refMemcpyTo 0xFFFFFFFF#32 [1#8, 2#8] 2 State.reset).isOk = true := by decide

theorem witness_CutShortCallsDrawTheReference :
    imageSize State.reset.liveImage = 4 * State.reset.cfg.nrGpr.count + 4 ∧
    { State.reset with callFates := [.cutShort] }.callFates.head? = some .cutShort ∧
    State.reset.ref.gpr.length = State.reset.cfg.nrGpr.count ∧ State.reset.cfg.ref = .blackBox := by decide +kernel

/-- For AttachCompletes, AttachMakesSixCalls, AttachThenCheckRegsAgrees and AttachTransfersTheCsrsUnderRefRv. -/
theorem witness_Attach :
    State.reset.FilesFit ∧ State.reset.Inv ∧ State.reset.CallsComplete ∧
    InGuestMemory State.reset.cfg State.reset.cfg.resetVector.toNat 24 ∧
    rv.Inv ∧ rv.CallsComplete ∧ rv.cfg.ref = .refRV ∧ InGuestMemory rv.cfg rv.cfg.resetVector.toNat 24 := by decide

theorem witness_AttachOutsideMemoryHaltsFirst :
    ¬ InGuestMemory { Config.standard with resetVector := 0x87FFFFF0#32 } (0x87FFFFF0#32).toNat 24 := by decide

theorem witness_StepStepsTheReferenceAndCompares :
    rv.FilesFit ∧ rv.busA = 0 ∧ (on rv 1#32 0).busA ≠ 0 ∧ rv.cosim = .detached ∧
    { on rv 1#32 0 with cosim := .attached }.cosim = .attached ∧ { on rv 1#32 0 with cosim := .attached }.FilesFit ∧
    rv.CallsComplete := by decide

theorem witness_MismatchesAreNotFaults :
    State.reset.FilesFit ∧ (nextOf (exec .checkRegs State.reset)).isSome = true ∧
    (nextOf (exec .step (on State.reset 1#32 0))).isSome = true := by decide

theorem witness_FatalChangesOnlyTheHaltRecord :
    State.reset.FilesFit ∧ State.reset.halted = false ∧
    exec (.csrGet 0x304) State.reset = .next (State.reset.haltWith .unknownId) ∧
    (State.reset.haltWith .unknownId).halted = true := ⟨by decide, rfl, rfl, rfl⟩

theorem witness_OnlyResetClearsTheHalt :
    (nextOf (step (queued haltedState [.reset ResetDraws.zero]))).map (fun t => t.halted) = some false ∧
    (queued haltedState [.reset ResetDraws.zero]).halted = true := by decide

/-- The hypotheses hold of a state that is not reachable: one that already records the fault, with no input. -/
theorem witness_ForeignCallSizeIsUnreachable :
    let s := State.reset.haltWith .foreignCallSize
    s.Inv ∧ step s = .next s ∧ s.haltReason = some .foreignCallSize := ⟨by decide, rfl, rfl⟩

theorem witness_ResponsesHaveTheirShape :
    exec .query State.reset = .next (State.reset.answer 0) ∧ Instr.query.port = .command := ⟨rfl, rfl⟩

theorem witness_UnusedBusesAreIgnored :
    exec .pcRead State.reset = .next (State.reset.answer 0x80000000#32) ∧
    exec (.gprRead 16#5) small = .refused .illegalCommand ∧
    Instr.pcRead ∈ [Instr.query, .attach, .detach, .checkRegs, .pcRead, .irqEdge] ∧
    Instr.gprWrite 0#5 ∉ [Instr.raise, .checkRegs, .step] ∧
    exec (.gprWrite 0#5) (on State.reset 1#32 0) = .refused .x0Write := ⟨rfl, rfl, by decide, by decide, rfl⟩

theorem witness_ResetStepResets :
    (queued haltedState [.reset ResetDraws.zero]).queue = .reset ResetDraws.zero :: [] := rfl

theorem witness_EntryStateFetchesDirectly :
    Config.standard.Legal ∧ { Config.standard with nrGpr := .n16, resetVector := 0x87FFFFFC#32 }.Legal := by decide

theorem witness_ResetMeetsTheInvariant :
    small.MemFits ∧ small.RefFits ∧ (zeroEngine small.cfg).gpr.length = small.cfg.nrGpr.count := by decide

/-- For StepKeepsTheInvariant and StepKeepsX0Zero. -/
theorem witness_StepKeepsTheInvariant :
    let s := queued tables [.command 0x205#32 0x40001234#32 0xCAFEF00D#32]
    s.Inv ∧ s.X0Zero ∧ (nextOf (step s)).isSome = true := by decide

/-- Four bytes of guest memory, so that a whole snapshot is small. -/
def tiny : State :=
  { State.powerOn { Config.standard with pmemSize := 4 } ResetDraws.zero [(0x80000003, 0xAB#8)]
      (zeroEngine Config.standard) with pc := 0x80000002#32 }

theorem witness_SnapshotLoadInvertsSave : tiny.Inv ∧ small.cfg = small.cfg := by decide

theorem witness_SnapshotHasTheStatedLayout :
    tiny.FilesFit ∧ tiny.cfg.Legal ∧ readGpr { tiny with gpr := writeGpr tiny.gpr 0 1#32 }.gpr 0 ≠ 0 := by decide

theorem test_snapshot_load_of_save :
    (nextOf (loadSnapshot (snapshotOf tiny) tiny)).map (fun t => (t.pc, t.mem)) =
      some (0x80000002#32, [(0x80000003, 0xAB#8)]) := by decide +kernel

end Sys2Proof.Tests
end

section
/-! PROOFS. The guest word (O8): it runs inside a RefExec and nowhere else. First what a `csrw` word is at its port and
where withFetchWord puts it, then what a STEP of an attached sequencer comes to, then which steps move the reference. -/

namespace Sys2Proof

/-! ### The guest word and the way in -/

/-- A `csrw` word is that `csrw` at the reference's port (30_encoding.md R73). -/
theorem decode_reference_encode_csrw (csr : BitVec 12) (rs1 : BitVec 5) :
    decode .reference (encode (.csrw csr rs1)) = .ok (.csrw csr rs1) := by
  simp [decode, encode, csrrwFields_csrrwWord, decodeCsrrw]

theorem portOfWord_encode_csrw (csr : BitVec 12) (rs1 : BitVec 5) :
    portOfWord (encode (.csrw csr rs1)) = .reference := by
  rw [portOfWord, decode_reference_encode_csrw]

namespace Machine

theorem withFetchWord_encode_csrw (s : State) (nbits : Nat) (csr : BitVec 12) (rs1 : BitVec 5) :
    s.withFetchWord nbits (encode (.csrw csr rs1)).toNat = s.offerGuestWord (encode (.csrw csr rs1)) := by
  rw [State.withFetchWord, BitVec.ofNat_toNat, BitVec.setWidth_eq, portOfWord_encode_csrw]

/-- The reference fetches the word that was placed at its pc. -/
theorem refFetch_offerGuestWord {s : State} (hm : Memory.wf s.ref.mem) (w : Word) :
    refFetch (s.offerGuestWord w).ref = w := by
  have h := readBytesWrap_writeBytesWrap hm s.ref.pc (leBytes 4 w) (by simp)
  rw [length_leBytes] at h
  rw [refFetch, State.offerGuestWord_ref, h, leWord_leBytes_four]

/-! ### A command taken from the queue, and an attached STEP -/

/-- A legal command in front of the queue is what the step runs, its operands on the buses. -/
theorem step_of_command {s : State} {w a b : Word} {rest : List Event} {i : Instr}
    (hq : s.queue = .command w a b :: rest) (hh : s.halted = false) (hd : decode .command w = .ok i) :
    step s = exec i { s with queue := rest, trace := [], busA := a, busB := b } := by
  simp [step, hq, takeEvent, takeCommand, hh, hd]

/-- An attached STEP of `n` instructions whose calls complete: RefExec's effect `v`, then the mirror refreshed from it,
then the comparison (42_cosim.md R118). -/
theorem exec_step_complete {s v : State} {n : Word} (hn : s.busA = n) (h0 : n ≠ 0) (ha : s.cosim = .attached)
    (hc : s.CallsComplete) (hg : s.ref.gpr.length = s.cfg.nrGpr.count)
    (hv : refExecEffect n { s with
      callFates := s.callFates.tail
      trace := s.trace ++ [.refExec n] } = v) :
    exec .step s = .next (({ v with
      mirror := ⟨v.ref.gpr, v.ref.pc⟩
      callFates := s.callFates.tail.tail
      trace := s.trace ++ [.refExec n, .refRegcpy ⟨v.ref.gpr, v.ref.pc⟩ .fromReference] } : State).compared
        s.busB) := by
  subst hn
  have he : refExec s.busA s = v := (refExec_complete hc s.busA).trans hv
  have htrace : v.trace = s.trace ++ [.refExec s.busA] := by rw [← hv, (refExecEffect_keeps _ _).1]
  have hfates : v.callFates = s.callFates.tail := by rw [← hv, (refExecEffect_keeps _ _).2.1]
  have hvc : v.CallsComplete := by
    rw [State.CallsComplete, hfates]
    exact hc.tail
  have hvg : v.ref.gpr.length = v.cfg.nrGpr.count := by
    rw [← he, refExec_gpr_length s.busA hg, (refExec_same _ _).cfg_eq]
  simp only [exec, execStep, if_neg h0, ha, he, refRegcpyFrom_complete hvc hvg, htrace, hfates, List.append_assoc,
    List.singleton_append]

/-- What a `csrw` makes of the reference depends on the parameters, the reference and the draw counter alone. -/
theorem csrwEffect_ref_congr {s t : State} (hc : t.cfg = s.cfg) (hr : t.ref = s.ref) (hd : t.draws = s.draws)
    (csr : BitVec 12) (rs1 : BitVec 5) : (csrwEffect csr rs1 t).ref = (csrwEffect csr rs1 s).ref := by
  unfold csrwEffect
  rw [hc, hr, hd]
  split
  · rfl
  · rw [State.drawEngine_ref, State.drawEngine_ref, hc, hd]

/-- An attached STEP of one instruction, its calls complete, where the word at the reference's pc is a `csrw`: that
instruction's effect, and the mirror refreshed from it. -/
theorem exec_step_csrw {s : State} {csr : BitVec 12} {rs1 : BitVec 5} (hn : s.busA = 1) (ha : s.cosim = .attached)
    (hc : s.CallsComplete) (hg : s.ref.gpr.length = s.cfg.nrGpr.count)
    (hd : decode .reference (refFetch s.ref) = .ok (.csrw csr rs1)) :
    ∃ t, exec .step s = .next t ∧ t.ref = (csrwEffect csr rs1 s).ref ∧ t.mirror = ⟨t.ref.gpr, t.ref.pc⟩ ∧
      t.trace = s.trace ++ [.refExec 1, .refRegcpy t.mirror .fromReference] := by
  obtain ⟨v, hv⟩ : ∃ v, refExecEffect 1 { s with
      callFates := s.callFates.tail
      trace := s.trace ++ [.refExec 1] } = v := ⟨_, rfl⟩
  have href : v.ref = (csrwEffect csr rs1 s).ref := by
    rw [← hv, refExecEffect_csrw (by exact hd)]
    apply csrwEffect_ref_congr <;> rfl
  exact ⟨_, exec_step_complete hn (by decide) ha hc hg hv, href, rfl, rfl⟩

/-- The step after a `csrw` word was offered runs it: its effect on the reference, and the mirror refreshed from it, by
one RefExec and one copy. -/
theorem step_offerGuestWord_csrw {s : State} (hf : s.FilesFit) (hc : s.CallsComplete) (hh : s.halted = false)
    {w : Word} {csr : BitVec 12} {rs1 : BitVec 5}
    (hd : decode .reference (refFetch (s.offerGuestWord w).ref) = .ok (.csrw csr rs1)) :
    ∃ t, step (s.offerGuestWord w) = .next t ∧ t.ref = (csrwEffect csr rs1 (s.offerGuestWord w)).ref ∧
      t.mirror = ⟨t.ref.gpr, t.ref.pc⟩ ∧ t.trace = [.refExec 1, .refRegcpy t.mirror .fromReference] := by
  obtain ⟨-, -, -, hg⟩ := hf
  have hpc : (s.offerGuestWord w).CallsComplete := by simpa [State.CallsComplete] using hc
  rw [step_of_command (State.offerGuestWord_queue s w) hh rfl]
  obtain ⟨t, ht, href, hmir, htr⟩ := exec_step_csrw (s := { s.offerGuestWord w with
    queue := s.queue, trace := [], busA := 1, busB := s.busB }) rfl rfl hpc hg hd
  exact ⟨t, ht, href.trans (by apply csrwEffect_ref_congr <;> rfl), hmir, htr⟩

/-! ### Which steps move the reference -/

/-- Only ATTACH, STEP and the guest's own instruction touch the reference. -/
theorem Effect.ref_eq {s t : State} {i : Instr} (h : Effect s i t) (ha : i ≠ .attach) (hs : i ≠ .step)
    (hp : i.port = .command) : t.ref = s.ref := by
  cases h with
  | haltsInCall u hi => exact absurd hi (by simp [ha, hs])
  | attaches => exact absurd rfl ha
  | steps => exact absurd rfl hs
  | guest => cases hp
  | answers | halts | stores | raises | delivers | latches | setsCsr | setsGpr | setsPc | detaches | compares => rfl

/-- A STEP of a detached sequencer makes no foreign call (42_cosim.md R118). -/
theorem exec_step_detached_ref {s t : State} (hd : s.cosim = .detached) (h : exec .step s = .next t) :
    t.ref = s.ref := by
  simp only [exec, execStep, hd] at h
  split at h
  · cases h
  · cases h
    rfl

theorem loadSnapshot_ref {image : List Byte} {s t : State} (h : loadSnapshot image s = .next t) : t.ref = s.ref := by
  unfold loadSnapshot at h
  split at h
  · split at h
    · cases h
      rfl
    · cases h
  · cases h

/-- A step in which the reference changes is an ATTACH, or a STEP of an attached sequencer. -/
theorem step_moves_ref {s t : State} (h : step s = .next t) (hr : t.ref ≠ s.ref) :
    ∃ w a b rest, s.queue = .command w a b :: rest ∧
      (decode .command w = .ok .attach ∨ decode .command w = .ok .step ∧ s.cosim = .attached) := by
  obtain ⟨-, rfl⟩ | ⟨w, a, b, rest, i, hq, -, hd, he⟩ | ⟨d, rest, -, rfl⟩ | ⟨image, rest, -, hl⟩ := step_cases h
  · exact absurd rfl hr
  · refine ⟨w, a, b, rest, hq, ?_⟩
    by_cases ha : i = .attach
    · exact .inl (ha ▸ hd)
    by_cases hs : i = .step
    · subst hs
      cases hm : s.cosim with
      | detached => exact absurd (exec_step_detached_ref (by exact hm) he) hr
      | attached => exact .inr ⟨hd, rfl⟩
    · exact absurd ((exec_effect he).ref_eq ha hs (port_of_decode_command hd)) hr
  · exact absurd rfl hr
  · exact absurd (loadSnapshot_ref hl) hr

/-- Settles O8: the clauses are RefExec(1) at a `csrw`, the offered word run by the next STEP, the steps that move the
reference, and the idle step. -/
theorem stepRunsTheGuestWord : Obligations.StepRunsTheGuestWord := by
  refine ⟨fun s csr rs1 hd => ?_, fun s csr rs1 hi hc hh => ?_, fun s t => step_moves_ref, fun s hq => ?_⟩
  · exact congrArg Host.Outcome.next (refExecEffect_csrw hd).symm
  · obtain ⟨hf, -, ⟨⟨hwf, -⟩, -⟩, -⟩ := hi
    intro p
    have hp : p = s.offerGuestWord (encode (.csrw csr rs1)) := withFetchWord_encode_csrw s 32 csr rs1
    rw [hp]
    have hd : decode .reference (refFetch (s.offerGuestWord (encode (.csrw csr rs1))).ref) = .ok (.csrw csr rs1) := by
      rw [refFetch_offerGuestWord hwf, decode_reference_encode_csrw]
    obtain ⟨t, ht, href, hmir, htr⟩ := step_offerGuestWord_csrw hf hc hh hd
    exact ⟨hd, t, _, ht, rfl, href, href ▸ hmir, htr⟩
  · rw [step, hq]

end Machine
end Sys2Proof
end

section
/-! PROOFS. The state (10_state.md): which instruction writes what, said once for each field over `Effect`; then who may
write each register (O27, O29), the halt record (O48, O49), reset (O53, O54, O56) and the invariant (O57, O58). Read
after write of the CSRs (O32) comes first. -/

namespace Sys2Proof.Machine

/-! ### The CSR multiplexer -/

theorem csrSelect_csrNumber (c : CsrName) : csrSelect (csrNumber c) = some c := by
  cases c <;> rfl

/-- The multiplexer selects a CSR by its own number alone. -/
theorem csrSelect_eq_some_iff {n : BitVec 12} {c : CsrName} : csrSelect n = some c ↔ n = csrNumber c := by
  refine ⟨fun h => ?_, fun h => h ▸ csrSelect_csrNumber c⟩
  unfold csrSelect at h
  split_ifs at h <;> cases h <;> assumption

theorem csrNumber_inj {c d : CsrName} : csrNumber c = csrNumber d ↔ c = d := by
  rw [← csrSelect_eq_some_iff, csrSelect_csrNumber, Option.some.injEq]

/-- A CSR keeps what was stored, and no other one changes (10_state.md R26). -/
theorem readCsr_writeCsr (f : Csrs) (c d : CsrName) (v : Word) :
    readCsr (writeCsr f c v) d = if d = c then v else readCsr f d := by
  cases c <;> cases d <;> rfl

/-- CSR_SET halts, or stores in the CSR that its number names. -/
theorem execCsrSet_cases {n : BitVec 12} {s t : State} (h : execCsrSet n s = .next t) :
    t.halted = true ∨
      ∃ c, n = csrNumber c ∧ t = ({ s with csr := writeCsr s.csr c s.busA } : State).answer 0 := by
  unfold execCsrSet at h
  split at h
  · next c hc =>
    cases h
    exact .inr ⟨c, csrSelect_eq_some_iff.mp hc, rfl⟩
  · cases h
    exact .inl rfl

/-- CSR_GET halts, or answers the CSR that its number names. -/
theorem execCsrGet_cases {n : BitVec 12} {s t : State} (h : execCsrGet n s = .next t) :
    t.halted = true ∨ ∃ c, n = csrNumber c ∧ t = s.answer (readCsr s.csr c) := by
  unfold execCsrGet at h
  split at h
  · next c hc =>
    cases h
    exact .inr ⟨c, csrSelect_eq_some_iff.mp hc, rfl⟩
  · cases h
    exact .inl rfl

theorem execCsrGet_csrNumber (c : CsrName) (s : State) :
    execCsrGet (csrNumber c) s = .next (s.answer (readCsr s.csr c)) := by
  rw [execCsrGet, csrSelect_csrNumber]

/-- Settles O32: neither command halted, so both numbers name CSRs, and these differ exactly when the numbers do. -/
theorem csrSetThenGet : Obligations.CsrSetThenGet := by
  intro s t u n m hset hget ht hu
  obtain hh | ⟨c, rfl, rfl⟩ := execCsrSet_cases hset
  · rw [ht] at hh
    cases hh
  obtain hh | ⟨d, rfl, rfl⟩ := execCsrGet_cases hget
  · rw [hu] at hh
    cases hh
  refine ⟨readCsr s.csr d, execCsrGet_csrNumber d s, ?_⟩
  simp only [State.answer_response, State.answer_csr, readCsr_writeCsr, csrNumber_inj]

/-! ### What an instruction does to each field

`SameButReference s t` is an equation of states, so `congrArg` reads a field off it. -/

theorem Effect.gpr_cases {s t : State} {i : Instr} (h : Effect s i t) :
    t.gpr = s.gpr ∨ ∃ r, i = .gprWrite r ∧ ¬ (r = 0 ∧ s.busA ≠ 0) ∧ t.gpr = writeGpr s.gpr r.toNat s.busA := by
  cases h with
  | setsGpr r _ hr => exact .inr ⟨r, rfl, hr, rfl⟩
  | attaches u hs | steps u hs => exact .inl (congrArg State.gpr hs :)
  | guest c r => exact .inl (congrArg State.gpr (csrwEffect_same c r s) :)
  | _ => exact .inl rfl

theorem Effect.pc_cases {s t : State} {i : Instr} (h : Effect s i t) : t.pc = s.pc ∨ i = .pcWrite := by
  cases h with
  | setsPc => exact .inr rfl
  | attaches u hs | steps u hs => exact .inl (congrArg State.pc hs :)
  | guest c r => exact .inl (congrArg State.pc (csrwEffect_same c r s) :)
  | _ => exact .inl rfl

/-- The latch is set by IRQ_EDGE and cleared by a QUERY that delivers (10_state.md R24). -/
theorem Effect.pending_cases {s t : State} {i : Instr} (h : Effect s i t) :
    t.pending = s.pending ∨ (i = .irqEdge ∧ t.pending = true) ∨
      (i = .query ∧ t.pending = false ∧ mieOf s.csr.mstatus = true ∧ s.csr.mtvec ≠ 0) := by
  cases h with
  | latches => exact .inr (.inl ⟨rfl, rfl⟩)
  | delivers hmie hvec => exact .inr (.inr ⟨rfl, rfl, hmie, hvec⟩)
  | attaches u hs | steps u hs => exact .inl (congrArg State.pending hs :)
  | guest c r => exact .inl (congrArg State.pending (csrwEffect_same c r s) :)
  | _ => exact .inl rfl

theorem Effect.csr_cases {s t : State} {i : Instr} (h : Effect s i t) :
    t.csr = s.csr ∨ (i = .raise ∧ t.csr = (s.enterTrap s.busA s.busB).csr) ∨
      ∃ c, i = .csrSet (csrNumber c) ∧ t.csr = writeCsr s.csr c s.busA := by
  cases h with
  | raises => exact .inr (.inl ⟨rfl, rfl⟩)
  | setsCsr n c hc => exact .inr (.inr ⟨c, csrSelect_eq_some_iff.mp hc ▸ rfl, rfl⟩)
  | attaches u hs | steps u hs => exact .inl (congrArg State.csr hs :)
  | guest c r => exact .inl (congrArg State.csr (csrwEffect_same c r s) :)
  | _ => exact .inl rfl

theorem csrwEffect_mirror (c : BitVec 12) (r : BitVec 5) (s : State) : (csrwEffect c r s).mirror = s.mirror := by
  unfold csrwEffect
  split <;> rfl

theorem Effect.mirror_cases {s t : State} {i : Instr} (h : Effect s i t) :
    t.mirror = s.mirror ∨ i = .attach ∨ i = .step := by
  cases h with
  | attaches => exact .inr (.inl rfl)
  | steps => exact .inr (.inr rfl)
  | guest c r => exact .inl (csrwEffect_mirror c r s)
  | _ => exact .inl rfl

theorem Effect.boot_cases {s t : State} {i : Instr} (h : Effect s i t) :
    t.boot = s.boot ∨ (i = .attach ∧ t.boot = scratchImage s) := by
  cases h with
  | attaches => exact .inr ⟨rfl, rfl⟩
  | steps u hs => exact .inl (congrArg State.boot hs :)
  | guest c r => exact .inl (congrArg State.boot (csrwEffect_same c r s) :)
  | _ => exact .inl rfl

theorem Effect.cosim_cases {s t : State} {i : Instr} (h : Effect s i t) :
    t.cosim = s.cosim ∨ i = .attach ∨ i = .detach := by
  cases h with
  | attaches => exact .inr (.inl rfl)
  | detaches => exact .inr (.inr rfl)
  | steps u hs => exact .inl (congrArg State.cosim hs :)
  | guest c r => exact .inl (congrArg State.cosim (csrwEffect_same c r s) :)
  | _ => exact .inl rfl

theorem Effect.mem_cases {s t : State} {i : Instr} (h : Effect s i t) :
    t.mem = s.mem ∨ ∃ len pa, i = .write len ∧ inPmem s.cfg pa len.bytes = true ∧
      t.mem = writeBytes s.mem pa.toNat (leBytes len.bytes s.busB) := by
  cases h with
  | stores len pa _ hp => exact .inr ⟨len, pa, rfl, hp, rfl⟩
  | attaches u hs | steps u hs => exact .inl (congrArg State.mem hs :)
  | guest c r => exact .inl (congrArg State.mem (csrwEffect_same c r s) :)
  | _ => exact .inl rfl

theorem SameButReference.surroundings {s t : State} (h : SameButReference s t) :
    t.cfg = s.cfg ∧ t.queue = s.queue ∧ t.busA = s.busA ∧ t.busB = s.busB :=
  ⟨h.cfg_eq, (congrArg State.queue h :), (congrArg State.busA h :), (congrArg State.busB h :)⟩

/-- Parameters, inputs and buses never change inside an instruction (10_state.md R40). -/
theorem Effect.surroundings {s t : State} {i : Instr} (h : Effect s i t) :
    t.cfg = s.cfg ∧ t.queue = s.queue ∧ t.busA = s.busA ∧ t.busB = s.busB := by
  cases h with
  | attaches u hs | steps u hs => exact (hs.surroundings :)
  | guest c r => exact (csrwEffect_same c r s).surroundings
  | _ => exact ⟨rfl, rfl, rfl, rfl⟩

theorem SameButReference.haltRecord {s t : State} (h : SameButReference s t) :
    t.halted = s.halted ∧ t.haltReason = s.haltReason :=
  ⟨(congrArg State.halted h :), (congrArg State.haltReason h :)⟩

/-- Where the register files fit, an instruction leaves the halt record alone or is Fatal (60_exceptions.md R122). -/
theorem Effect.halt_cases {s t : State} {i : Instr} (hf : s.FilesFit) (h : Effect s i t) :
    (t.halted = s.halted ∧ t.haltReason = s.haltReason) ∨
      ∃ f tr, t = ({ s with trace := tr } : State).haltWith f := by
  cases h with
  | halts f tr => exact .inr ⟨f, tr, rfl⟩
  | haltsInCall _ _ hs => exact absurd hf hs
  | attaches u hs | steps u hs => exact .inl (hs.haltRecord :)
  | guest c r => exact .inl (csrwEffect_same c r s).haltRecord
  | _ => exact .inl ⟨rfl, rfl⟩

/-! ### Who writes which state -/

/-- Settles O27: `Effect.pending_cases` lists the two ways the latch moves. -/
theorem onlyEdgesAndQueriesMoveTheLatch : Obligations.OnlyEdgesAndQueriesMoveTheLatch :=
  fun _ _ _ h hne => (exec_effect h).pending_cases.resolve_left hne

/-- A CSR that changed was set under its own number, or is one of the three that trap entry writes. -/
theorem Effect.csr_writer {s t : State} {i : Instr} (h : Effect s i t) {c : CsrName}
    (hne : readCsr t.csr c ≠ readCsr s.csr c) :
    (i = .raise ∧ c ∈ [.mepc, .mcause, .mstatus]) ∨ i = .csrSet (csrNumber c) := by
  obtain hc | ⟨rfl, hc⟩ | ⟨d, rfl, hc⟩ := h.csr_cases
  · exact absurd (congrArg (readCsr · c) hc) hne
  · refine .inl ⟨rfl, ?_⟩
    rw [hc, State.enterTrap_csr] at hne
    cases c with
    | mepc | mcause | mstatus => decide
    | mtvec | satp | mscratch => exact absurd rfl hne
  · rw [hc, readCsr_writeCsr] at hne
    by_cases hd : c = d
    · exact .inr (hd ▸ rfl)
    · exact absurd (if_neg hd) hne

/-- A CSR that trap entry leaves alone has CSR_SET as its only writer. -/
theorem Effect.csr_set_alone {s t : State} {i : Instr} (h : Effect s i t) {c : CsrName}
    (hc : c ∉ [.mepc, .mcause, .mstatus]) (hne : readCsr t.csr c ≠ readCsr s.csr c) : i = .csrSet (csrNumber c) :=
  (h.csr_writer hne).resolve_left fun hr => hc hr.2

/-- Settles O29, field by field. -/
theorem eachRegisterHasItsWriters : Obligations.EachRegisterHasItsWriters := by
  intro i s t hx
  have h := exec_effect hx
  have trapOrSet (c : CsrName) (hne : readCsr t.csr c ≠ readCsr s.csr c) : i = .raise ∨ i = .csrSet (csrNumber c) :=
    (h.csr_writer hne).imp_left And.left
  refine ⟨fun hne => ?_, h.pc_cases.resolve_left, h.csr_set_alone (c := .satp) (by decide),
    h.csr_set_alone (c := .mtvec) (by decide), h.csr_set_alone (c := .mscratch) (by decide), trapOrSet .mepc,
    trapOrSet .mcause, trapOrSet .mstatus, h.mirror_cases.resolve_left,
    fun hne => (h.boot_cases.resolve_left hne).1, h.cosim_cases.resolve_left, fun hne => ?_, fun hne => ?_,
    h.surroundings⟩
  · obtain ⟨r, hr, -⟩ := h.gpr_cases.resolve_left hne
    exact ⟨r, hr⟩
  · obtain ⟨len, -, hw, -⟩ := h.mem_cases.resolve_left hne
    exact ⟨len, hw⟩
  · cases h with
    | guest c r => exact .inr (.inr ⟨c, r, rfl⟩)
    | attaches => exact .inl rfl
    | steps => exact .inr (.inl rfl)
    | haltsInCall _ hi => exact hi.imp_right .inl
    | _ => exact absurd rfl hne

/-! ### The halt record -/

/-- Settles O48: the files fit, so an instruction that halts is a plain Fatal and not one of a foreign call. -/
theorem fatalChangesOnlyTheHaltRecord : Obligations.FatalChangesOnlyTheHaltRecord := by
  intro i s t hf hs hx ht
  obtain ⟨hh, -⟩ | ⟨f, tr, rfl⟩ := (exec_effect hx).halt_cases hf
  · rw [hh, hs] at ht
    cases ht
  · exact ⟨f, rfl, rfl, rfl⟩

/-- What a snapshot load that is taken answers (20_memory.md R60). -/
theorem loadSnapshot_next {image : List Byte} {s t : State} (h : loadSnapshot image s = .next t) :
    image.length = pmemOffset s.cfg + pmemCount s.cfg ∧ wordAt image 0 = 0 ∧
      t = { s with
        gpr := (List.range s.cfg.nrGpr.count).map (fun i => wordAt image (4 * i))
        pc := wordAt image (4 * s.cfg.nrGpr.count)
        csr := snapshotCsrs s.cfg image
        mem := writeBytes [] s.cfg.pmemBase.toNat (image.drop (pmemOffset s.cfg)) } := by
  unfold loadSnapshot at h
  split at h
  · next hl =>
    split at h
    · next h0 =>
      cases h
      exact ⟨hl, h0, rfl⟩
    · cases h
  · cases h

/-- Settles O49: of the four things a step can do, a command asks for no halt, and idling and a snapshot load leave the
halt record as it was. -/
theorem onlyResetClearsTheHalt : Obligations.OnlyResetClearsTheHalt := by
  intro s t hst hs ht
  obtain ⟨-, rfl⟩ | ⟨_, _, _, _, _, -, hh, -⟩ | ⟨d, rest, hq, -⟩ | ⟨image, rest, -, hl⟩ := step_cases hst
  · rw [hs] at ht
    cases ht
  · rw [hs] at hh
    cases hh
  · exact ⟨d, rest, hq⟩
  · obtain ⟨-, -, rfl⟩ := loadSnapshot_next hl
    exact absurd (hs.symm.trans ht) (by decide)

/-! ### Reset -/

theorem nrGpr_count_pos (n : NrGpr) : 0 < n.count := Nat.lt_of_lt_of_le (by decide) (nrGpr_pos n)

theorem readGpr_powerOn_zero (c : Config) (d : ResetDraws) (m : Memory) (r : RefEngine) :
    readGpr (State.powerOn c d m r).gpr 0 = 0 :=
  readGpr_writeGpr_self (by rw [length_fitRegs]; exact nrGpr_count_pos _) 0

theorem readGpr_powerOn (c : Config) (d : ResetDraws) (m : Memory) (r : RefEngine) {i : Nat} (h0 : 0 < i)
    (hi : i < c.nrGpr.count) : readGpr (State.powerOn c d m r).gpr i = readGpr d.gpr i :=
  (readGpr_writeGpr_ne _ (Nat.ne_of_gt h0) 0).trans (readGpr_fitRegs _ _ hi)

/-- Settles O53: the stated values are `State.powerOn`'s fields, the drawn ones are the draws cut to NR_GPR registers. -/
theorem resetGivesTheStatedValues : Obligations.ResetGivesTheStatedValues :=
  fun c d m r =>
    ⟨rfl, readGpr_powerOn_zero c d m r, rfl, rfl, rfl, rfl, rfl, rfl, rfl, rfl, rfl, rfl,
      fun _ h0 hi => readGpr_powerOn c d m r h0 hi, fun _ hi => readGpr_fitRegs _ _ hi, rfl,
      fun _ hi => readGpr_fitRegs _ _ hi, rfl⟩

theorem step_of_reset {s : State} {d : ResetDraws} {rest : List Event} (hq : s.queue = .reset d :: rest) :
    step s = .next (({ s with queue := rest, trace := [] } : State).resetNow d) := by
  rw [step, hq]
  rfl

/-- Settles O54: the step is `State.resetNow`, which is `State.powerOn` on the memory and engine as they stand. -/
theorem resetStepResets : Obligations.ResetStepResets :=
  fun _ _ _ hq => ⟨_, step_of_reset hq, rfl, rfl, rfl, rfl, rfl, rfl, rfl, rfl, rfl, rfl, rfl, rfl, rfl, rfl⟩

/-- A machine after reset meets the invariant, whatever was drawn, if its memory and its engine do. -/
theorem powerOn_inv {c : Config} {m : Memory} {r : RefEngine} (d : ResetDraws) (hm : (State.powerOn c d m r).MemFits)
    (hr : (State.powerOn c d m r).RefFits) (hg : r.gpr.length = c.nrGpr.count) : (State.powerOn c d m r).Inv := by
  have files : (State.powerOn c d m r).FilesFit :=
    ⟨(length_writeGpr _ 0 0).trans (length_fitRegs _ _), length_fitRegs _ _, length_fitRegs _ _, hg⟩
  exact ⟨files, hm, hr, rfl, readGpr_powerOn_zero c d m r⟩

/-- Settles O56: State.reset is such a machine, with nothing listed in its memories. -/
theorem resetMeetsTheInvariant : Obligations.ResetMeetsTheInvariant := by
  refine ⟨powerOn_inv _ ⟨sparseWf_nil, ?_⟩ ⟨⟨sparseWf_nil, ?_⟩, sparseWf_nil, ?_⟩ (length_fitRegs _ _),
    fun c d m r => powerOn_inv d⟩ <;> exact fun _ h => absurd h List.not_mem_nil

/-! ### gpr[0] stays 0 -/

theorem readGpr_writeGpr_zero (l : List Word) : readGpr (writeGpr l 0 0) 0 = 0 := by
  cases l <;> rfl

/-- GPR_WRITE refuses a non-zero value to x0 (41_trap_csr.md R104), and nothing else writes a register. -/
theorem Effect.keeps_x0Zero {s t : State} {i : Instr} (h : Effect s i t) (hs : s.X0Zero) : t.X0Zero := by
  obtain hg | ⟨r, -, hr, hg⟩ := h.gpr_cases
  · rwa [State.X0Zero, hg]
  rw [State.X0Zero, hg]
  by_cases h0 : r = 0
  · have ha : s.busA = 0 := not_not.mp fun hne => hr ⟨h0, hne⟩
    rw [h0, ha]
    exact readGpr_writeGpr_zero s.gpr
  · have hn : 0 ≠ r.toNat := fun he => h0 (BitVec.eq_of_toNat_eq he.symm)
    rwa [readGpr_writeGpr_ne s.gpr hn]

/-- The snapshot loader refuses gpr[0] ≠ 0 (20_memory.md R60). -/
theorem loadSnapshot_x0Zero {image : List Byte} {s t : State} (h : loadSnapshot image s = .next t) : t.X0Zero := by
  obtain ⟨-, h0, rfl⟩ := loadSnapshot_next h
  simpa [State.X0Zero, readGpr, nrGpr_count_pos] using h0

/-- Settles O58, over the four things a step can do. -/
theorem stepKeepsX0Zero : Obligations.StepKeepsX0Zero := by
  intro s t hs hst
  obtain ⟨-, rfl⟩ | ⟨_, _, _, _, _, -, -, -, hx⟩ | ⟨d, _, -, rfl⟩ | ⟨_, _, -, hl⟩ := step_cases hst
  · exact hs
  · exact (exec_effect hx).keeps_x0Zero hs
  · exact readGpr_powerOn_zero s.cfg d s.mem s.ref
  · exact loadSnapshot_x0Zero hl

/-! ### The invariant -/

/-- The reference's side stays in its form: ATTACH and STEP make copies of NR_GPR registers, and what is drawn is brought
to the form (42_cosim.md R107 to R109). -/
theorem Effect.keeps_reference {s t : State} {i : Instr} (h : Effect s i t) (hf : s.FilesFit) (hr : s.RefFits) :
    EngineFits s.cfg t.ref ∧ t.mirror.gpr.length = s.cfg.nrGpr.count := by
  have ⟨hg, hm, _, he⟩ := hf
  have hfit : EngineFits s.cfg s.ref := ⟨he, hr⟩
  cases h with
  | haltsInCall _ _ hs => exact absurd hf hs
  | attaches u _ hu =>
    obtain ⟨v, hv, -, h⟩ := attachCalls_ok hg hfit
    cases hu.symm.trans hv
    exact h
  | steps u _ hu =>
    obtain ⟨v, hv, -, h⟩ := stepCalls_ok s.busA hfit
    cases hu.symm.trans hv
    exact h
  | guest c r => exact ⟨csrwEffect_fits hfit c r, csrwEffect_mirror c r s ▸ hm⟩
  | _ => exact ⟨hfit, hm⟩

theorem Effect.keeps_gpr_length {s t : State} {i : Instr} (h : Effect s i t) : t.gpr.length = s.gpr.length := by
  obtain hg | ⟨r, -, -, hg⟩ := h.gpr_cases <;> rw [hg]
  exact length_writeGpr _ _ _

/-- The scratch image, a copy of the live registers with six replaced, has as many of them. -/
theorem Effect.keeps_boot_length {s t : State} {i : Instr} (h : Effect s i t) (hf : s.FilesFit) :
    t.boot.gpr.length = s.cfg.nrGpr.count := by
  obtain ⟨hg, -, hb, -⟩ := hf
  obtain h | ⟨-, h⟩ := h.boot_cases <;> rw [h]
  · exact hb
  · rw [length_scratchImage, hg]

/-- Bytes stored where addresses exist leave guest memory canonical, over addresses that exist. -/
theorem writeBytes_fits {c : Config} {m : Memory} {a : Nat} {bs : List Byte}
    (hm : Memory.wf m ∧ ∀ k ∈ m, c.pmemBase.toNat ≤ k.1 ∧ k.1 < pmemEnd c) (hlo : c.pmemBase.toNat ≤ a)
    (hhi : bs ≠ [] → a + bs.length ≤ pmemEnd c) :
    Memory.wf (writeBytes m a bs) ∧ ∀ k ∈ writeBytes m a bs, c.pmemBase.toNat ≤ k.1 ∧ k.1 < pmemEnd c := by
  refine ⟨writeBytes_wf hm.1 a bs, fun k hk => ?_⟩
  obtain hk | ⟨hge, hlt⟩ := mem_writeBytes hk
  · exact hm.2 k hk
  · have hne : bs ≠ [] := by
      rintro rfl
      exact absurd hlt (Nat.not_lt_of_le hge)
    have := hhi hne
    omega

/-- WRITE stores only where all its bytes are guest memory (20_memory.md R46, R48). -/
theorem Effect.keeps_memFits {s t : State} {i : Instr} (h : Effect s i t) (hm : s.MemFits) : t.MemFits := by
  obtain ⟨hcfg, -⟩ := h.surroundings
  obtain he | ⟨len, pa, -, hp, he⟩ := h.mem_cases <;> rw [State.MemFits, hcfg, he]
  · exact hm
  · obtain ⟨hlo, hhi⟩ := of_decide_eq_true hp
    exact writeBytes_fits hm hlo fun _ => by rwa [length_leBytes]

theorem Effect.keeps_haltFits {s t : State} {i : Instr} (h : Effect s i t) (hf : s.FilesFit) (hh : s.HaltFits) :
    t.HaltFits := by
  obtain ⟨h1, h2⟩ | ⟨f, tr, rfl⟩ := h.halt_cases hf
  · rwa [State.HaltFits, h1, h2]
  · rfl

/-- Every instruction keeps the invariant. -/
theorem Effect.keeps_inv {s t : State} {i : Instr} (h : Effect s i t) (hs : s.Inv) : t.Inv := by
  obtain ⟨hf, hm, hr, hh, h0⟩ := hs
  obtain ⟨hcfg, -⟩ := h.surroundings
  obtain ⟨⟨hrefLen, href⟩, hmirror⟩ := h.keeps_reference hf hr
  have files : t.FilesFit := by
    rw [State.FilesFit, hcfg]
    exact ⟨h.keeps_gpr_length.trans hf.1, hmirror, h.keeps_boot_length hf, hrefLen⟩
  exact ⟨files, h.keeps_memFits hm, href, h.keeps_haltFits hf hh, h.keeps_x0Zero h0⟩

/-- A snapshot load gives NR_GPR registers, the first of them 0, and exactly the bytes of guest memory that exist. -/
theorem loadSnapshot_keeps_inv {image : List Byte} {s t : State} (h : loadSnapshot image s = .next t) (hs : s.Inv) :
    t.Inv := by
  obtain ⟨⟨-, hmirror, hboot, href⟩, -, hr, hh, -⟩ := hs
  have h0 := loadSnapshot_x0Zero h
  obtain ⟨hl, -, rfl⟩ := loadSnapshot_next h
  refine ⟨⟨by simp, hmirror, hboot, href⟩, ?_, hr, hh, h0⟩
  refine writeBytes_fits ⟨sparseWf_nil, fun _ hk => absurd hk List.not_mem_nil⟩ (Nat.le_refl _) fun hne => ?_
  have hpos : 0 < pmemCount s.cfg := by
    have := List.length_pos_of_ne_nil hne
    rw [List.length_drop] at this
    omega
  rw [List.length_drop, hl, Nat.add_sub_cancel_left]
  show s.cfg.pmemBase.toNat + pmemCount s.cfg ≤ pmemEnd s.cfg
  unfold pmemCount at *
  omega

/-- Settles O57, over the four things a step can do. -/
theorem stepKeepsTheInvariant : Obligations.StepKeepsTheInvariant := by
  intro s t hs hst
  obtain ⟨-, rfl⟩ | ⟨_, _, _, _, _, -, -, -, hx⟩ | ⟨d, _, -, rfl⟩ | ⟨_, _, -, hl⟩ := step_cases hst
  · exact hs
  · exact (exec_effect hx).keeps_inv hs
  · obtain ⟨⟨-, -, -, hg⟩, hm, hr, -⟩ := hs
    exact powerOn_inv d hm hr hg
  · exact loadSnapshot_keeps_inv hl hs

end Sys2Proof.Machine
end

section
/-! PROOFS. Memory as the walker sees it (20_memory.md, 40_translation.md): what a PteRead answers (O12), where a walk
stops and why (O15), where an access goes (O17), then what a load and a store of that physical address do (O18 to O22).
-/

namespace Sys2Proof.Machine

/-! ### PteRead -/

/-- Settles O12: the executable range check is the range, and the word assembled is the number its bytes spell. -/
theorem pteReadIsFourBytesOrNothing : Obligations.PteReadIsFourBytesOrNothing := by
  intro s pa
  rw [← inPmem_iff_inGuestMemory]
  exact ⟨fun h => ⟨_, if_pos h, toNat_leWord_readBytes s pa.toNat 4 (Nat.le_refl 4)⟩, fun h => if_neg h⟩

/-! ### Where a walk stops -/

section Walk

variable {s : State} {vaddr : Word} {len : AccessLen}

theorem walk_crossPage (hx : 4096 < vaddr.toNat % 4096 + len.bytes) : walk s vaddr len = ⟨.error .crossPage, []⟩ :=
  if_pos ((crossPage_iff vaddr len).mpr hx)

theorem walk_noRoot (hx : vaddr.toNat % 4096 + len.bytes ≤ 4096)
    (h : pteRead s (level1Addr s.csr.satp vaddr) = none) : walk s vaddr len = ⟨.error .physOutOfRange, []⟩ := by
  simp only [walk, crossPage_iff, Nat.not_lt.mpr hx, if_false, pteAddr_root, h]

section Root

variable {pte1 : Word} (hx : vaddr.toNat % 4096 + len.bytes ≤ 4096)
  (h1 : pteRead s (level1Addr s.csr.satp vaddr) = some pte1)
include hx h1

theorem walk_rootInvalid (hv : pteV pte1 = false) :
    walk s vaddr len = ⟨.error (.invalid .l1V), [level1Addr s.csr.satp vaddr]⟩ := by
  simp only [walk, crossPage_iff, Nat.not_lt.mpr hx, if_false, pteAddr_root, h1, hv, if_true]

theorem walk_misaligned (hv : pteV pte1 = true) (hl : pteR pte1 = true ∨ pteX pte1 = true)
    (hp : ptePpn0 pte1 ≠ 0) : walk s vaddr len = ⟨.error .misaligned, [level1Addr s.csr.satp vaddr]⟩ := by
  simp only [walk, crossPage_iff, Nat.not_lt.mpr hx, if_false, pteAddr_root, h1, hv, Bool.true_eq_false, if_pos hl,
    if_neg hp]

/-- Below a pointer the walk goes on at the second level (40_translation.md R82). -/
theorem walk_pointer (hv : pteV pte1 = true) (hr : pteR pte1 = false) (hxx : pteX pte1 = false) :
    walk s vaddr len = walkLevel2 s (level1Addr s.csr.satp vaddr) pte1 vaddr := by
  simp [walk, crossPage_iff, Nat.not_lt.mpr hx, pteAddr_root, h1, hv, hr, hxx]

end Root

section Level2

variable {a1 pte1 : Word}

theorem walkLevel2_noTable (h : pteRead s (level2Addr pte1 vaddr) = none) :
    walkLevel2 s a1 pte1 vaddr = ⟨.error .physOutOfRange, [a1]⟩ := by
  simp only [walkLevel2, pteAddr_table, h]

theorem walkLevel2_invalid {pte2 : Word} (h : pteRead s (level2Addr pte1 vaddr) = some pte2)
    (hv : pteV pte2 = false) :
    walkLevel2 s a1 pte1 vaddr = ⟨.error (.invalid .l2V), [a1, level2Addr pte1 vaddr]⟩ := by
  simp only [walkLevel2, pteAddr_table, h, hv, if_true]

theorem walkLevel2_noReadWrite {pte2 : Word} (h : pteRead s (level2Addr pte1 vaddr) = some pte2)
    (hv : pteV pte2 = true) (hrw : pteR pte2 = false ∨ pteW pte2 = false) :
    walkLevel2 s a1 pte1 vaddr = ⟨.error (.invalid .l2RW), [a1, level2Addr pte1 vaddr]⟩ := by
  simp only [walkLevel2, pteAddr_table, h, hv, Bool.true_eq_false, if_false, if_pos hrw]

end Level2

end Walk

/-- TRANSLATE halts with what its walk failed for, after the reads the walk made. -/
theorem exec_translate_of_walk_error {s : State} {len : AccessLen} {f : Fault} {reads : List Word}
    (kind : AccessKind) (h : walk s s.busA len = ⟨.error f, reads⟩) :
    exec (.translate kind len) s = .next ((s.logged (reads.map .pteRead)).haltWith f) := by
  simp only [exec, execTranslate, h]

/-- Settles O15: each case is a case of the walk. -/
theorem translateHaltsInOrder : Obligations.TranslateHaltsInOrder := by
  intro s kind len a1 halts
  have of_walk {f : Fault} {reads : List Word} (h : walk s s.busA len = ⟨.error f, reads⟩) : halts f reads :=
    exec_translate_of_walk_error kind h
  refine ⟨fun hx => of_walk (walk_crossPage hx), fun hx => ⟨fun h => of_walk (walk_noRoot hx h), fun pte1 h1 => ?_⟩⟩
  refine ⟨fun hv => of_walk (walk_rootInvalid hx h1 hv), fun hv hl hp =>
    of_walk (walk_misaligned hx h1 hv hl (mt (ptePpn0_eq_zero_iff pte1).mp hp)), fun hv hr hxx => ?_⟩
  have pointer := walk_pointer hx h1 hv hr hxx
  exact ⟨fun h => of_walk (pointer.trans (walkLevel2_noTable h)), fun pte2 h2 =>
    ⟨fun hv2 => of_walk (pointer.trans (walkLevel2_invalid h2 hv2)),
      fun hv2 hrw => of_walk (pointer.trans (walkLevel2_noReadWrite h2 hv2 hrw))⟩⟩

/-! ### Where an access goes -/

theorem superpageAddr_or_offset (pte vaddr : Word) :
    superpageAddr pte vaddr ||| (pageOffset vaddr).setWidth 32 = superpageAddr pte vaddr := by
  rw [superpageAddr, BitVec.or_assoc, BitVec.or_self]

theorem pageAddr_or_offset (pte vaddr : Word) :
    pageAddr pte vaddr ||| (pageOffset vaddr).setWidth 32 = pageAddr pte vaddr := by
  rw [pageAddr, BitVec.or_assoc, BitVec.or_self]

theorem walkLevel2_ok {s : State} {a1 pte1 vaddr pa : Word} (h : (walkLevel2 s a1 pte1 vaddr).result = .ok pa) :
    ∃ pte, pa = pageAddr pte vaddr := by
  unfold walkLevel2 at h
  dsimp only at h
  split at h
  · cases h
  next pte2 _ =>
  split_ifs at h
  cases h
  exact ⟨pte2, rfl⟩

/-- A walk that succeeds ends at a superpage leaf or at a page leaf (40_translation.md R84, R88). -/
theorem walk_ok {s : State} {vaddr pa : Word} {len : AccessLen} (h : (walk s vaddr len).result = .ok pa) :
    ∃ pte, pa = superpageAddr pte vaddr ∨ pa = pageAddr pte vaddr := by
  unfold walk at h
  split at h
  · cases h
  dsimp only at h
  split at h
  · cases h
  next pte1 _ =>
  split_ifs at h
  · cases h
    exact ⟨pte1, .inl rfl⟩
  · obtain ⟨pte, hp⟩ := walkLevel2_ok h
    exact ⟨pte, .inr hp⟩

/-- The address a walk ends with carries the offset already. -/
theorem walk_or_offset {s : State} {vaddr pa : Word} {len : AccessLen} (h : (walk s vaddr len).result = .ok pa) :
    pa ||| (pageOffset vaddr).setWidth 32 = pa := by
  obtain ⟨pte, rfl | rfl⟩ := walk_ok h
  · exact superpageAddr_or_offset pte vaddr
  · exact pageAddr_or_offset pte vaddr

theorem physAddr_bare {s : State} (h : translating s = false) (vaddr : Word) (len : AccessLen) :
    physAddr s vaddr len = ⟨.ok vaddr, []⟩ := by
  rw [physAddr, h]
  rfl

theorem physAddr_translating {s : State} (h : translating s = true) (vaddr : Word) (len : AccessLen) :
    physAddr s vaddr len = walk s vaddr len := by
  rw [physAddr, if_pos h]
  split
  · next pa reads hw => rw [walk_or_offset (by rw [hw]), hw]
  · next hw => exact hw.symm

/-- Settles O17: MODE is the top bit of satp, and the OR repeats the offset of the walk's address. -/
theorem physicalAddressOfAnAccess : Obligations.PhysicalAddressOfAnAccess := by
  intro s vaddr len
  refine ⟨fun h => physAddr_bare ?_ vaddr len, fun h => physAddr_translating ?_ vaddr len⟩
  · rw [translating_eq, decide_eq_false (Nat.not_le.mpr h)]
  · rw [translating_eq, decide_eq_true h]

/-! ### Physical accesses -/

@[simp] theorem State.logged_logged (s : State) (es fs : List BusEvent) :
    (s.logged es).logged fs = s.logged (es ++ fs) := by
  simp [State.logged]

section Physical

variable {s : State} {pa : Word} {n : Nat}

theorem memRead_inDevice (hm : ¬ InGuestMemory s.cfg pa.toNat n) (hd : InDeviceWindow s.cfg pa.toNat n) :
    memRead s pa n = .ok (leWord (leBytes n (Config.freeWord s.draws)),
      { s.logged [.memRead pa n] with draws := s.draws + 1 }) := by
  rw [← inPmem_iff_inGuestMemory] at hm
  rw [memRead, if_neg hm, if_pos ((inDevice_iff_inDeviceWindow _ _ _).mpr hd)]

theorem memRead_outside (hm : ¬ InGuestMemory s.cfg pa.toNat n) (hd : ¬ InDeviceWindow s.cfg pa.toNat n) :
    memRead s pa n = .error .physOutOfRange := by
  rw [← inPmem_iff_inGuestMemory] at hm
  rw [← inDevice_iff_inDeviceWindow] at hd
  rw [memRead, if_neg hm, if_neg hd]

theorem memWrite_inPmem (hm : InGuestMemory s.cfg pa.toNat n) (v : Word) :
    memWrite s pa n v =
      .ok { s.logged [.memWrite pa (leBytes n v)] with mem := writeBytes s.mem pa.toNat (leBytes n v) } :=
  if_pos ((inPmem_iff_inGuestMemory _ _ _).mpr hm)

theorem memWrite_inDevice (hm : ¬ InGuestMemory s.cfg pa.toNat n) (hd : InDeviceWindow s.cfg pa.toNat n)
    (v : Word) : memWrite s pa n v = .ok (s.logged [.memWrite pa (leBytes n v)]) := by
  rw [← inPmem_iff_inGuestMemory] at hm
  rw [memWrite, if_neg hm, if_pos ((inDevice_iff_inDeviceWindow _ _ _).mpr hd)]

theorem memWrite_outside (hm : ¬ InGuestMemory s.cfg pa.toNat n) (hd : ¬ InDeviceWindow s.cfg pa.toNat n)
    (v : Word) : memWrite s pa n v = .error .physOutOfRange := by
  rw [← inPmem_iff_inGuestMemory] at hm
  rw [← inDevice_iff_inDeviceWindow] at hd
  rw [memWrite, if_neg hm, if_neg hd]

end Physical

/-! ### IFETCH, READ and WRITE -/

section Access

variable {s : State} {len : AccessLen}

theorem loadVirtual_of_error {f : Fault} (h : (physAddr s s.busA len).result = .error f) :
    loadVirtual len s = .next ((s.logged ((physAddr s s.busA len).reads.map .pteRead)).haltWith f) := by
  simp only [loadVirtual, h]

theorem execWrite_of_error {f : Fault} (h : (physAddr s s.busA len).result = .error f) :
    execWrite len s = .next ((s.logged ((physAddr s s.busA len).reads.map .pteRead)).haltWith f) := by
  simp only [execWrite, h]

variable {pa : Word} (hpa : (physAddr s s.busA len).result = .ok pa)
include hpa

theorem loadVirtual_inDevice (hm : ¬ InGuestMemory s.cfg pa.toNat len.bytes)
    (hd : InDeviceWindow s.cfg pa.toNat len.bytes) :
    loadVirtual len s =
      .next ({ s.logged ((physAddr s s.busA len).reads.map BusEvent.pteRead ++ [BusEvent.memRead pa len.bytes]) with
        draws := s.draws + 1 }.answer (leWord (leBytes len.bytes (Config.freeWord s.draws)))) := by
  simp only [loadVirtual, hpa]
  rw [memRead_inDevice (s := s.logged _) hm hd, State.logged_logged]
  rfl

theorem loadVirtual_outside (hm : ¬ InGuestMemory s.cfg pa.toNat len.bytes)
    (hd : ¬ InDeviceWindow s.cfg pa.toNat len.bytes) :
    loadVirtual len s =
      .next ((s.logged ((physAddr s s.busA len).reads.map .pteRead)).haltWith .physOutOfRange) := by
  simp only [loadVirtual, hpa]
  rw [memRead_outside (s := s.logged _) hm hd]

theorem execWrite_inPmem (hm : InGuestMemory s.cfg pa.toNat len.bytes) :
    execWrite len s =
      .next ({ s.logged ((physAddr s s.busA len).reads.map BusEvent.pteRead ++
          [BusEvent.memWrite pa (leBytes len.bytes s.busB)]) with
        mem := writeBytes s.mem pa.toNat (leBytes len.bytes s.busB) }.answer 0) := by
  simp only [execWrite, hpa]
  rw [memWrite_inPmem (s := s.logged _) hm, State.logged_logged]
  rfl

theorem execWrite_inDevice (hm : ¬ InGuestMemory s.cfg pa.toNat len.bytes)
    (hd : InDeviceWindow s.cfg pa.toNat len.bytes) :
    execWrite len s =
      .next ((s.logged ((physAddr s s.busA len).reads.map .pteRead ++
        [.memWrite pa (leBytes len.bytes s.busB)])).answer 0) := by
  simp only [execWrite, hpa]
  rw [memWrite_inDevice (s := s.logged _) hm hd, State.logged_logged]

theorem execWrite_outside (hm : ¬ InGuestMemory s.cfg pa.toNat len.bytes)
    (hd : ¬ InDeviceWindow s.cfg pa.toNat len.bytes) :
    execWrite len s =
      .next ((s.logged ((physAddr s s.busA len).reads.map .pteRead)).haltWith .physOutOfRange) := by
  simp only [execWrite, hpa]
  rw [memWrite_outside (s := s.logged _) hm hd]

end Access

/-- Settles O18: both loads are `loadVirtual`, and the word assembled is the number its bytes spell. -/
theorem loadsAnswerTheBytes : Obligations.LoadsAnswerTheBytes := by
  intro s len pa hpa hm
  have h := loadVirtual_inPmem hpa ((inPmem_iff_inGuestMemory _ _ _).mpr hm)
  exact ⟨_, toNat_leWord_readBytes s pa.toNat len.bytes (bytes_le_four len), h, h⟩

/-- Settles O19: every stored byte reads back, and every other one reads as before. -/
theorem writeStoresItsBytesOnly : Obligations.WriteStoresItsBytesOnly := by
  intro s len pa hs hpa hm
  obtain ⟨hwf, -⟩ := hs
  refine ⟨_, execWrite_inPmem hpa hm, fun k hk => ?_, fun a ha => ?_, rfl, rfl⟩
  · have hk' : k < (leBytes len.bytes s.busB).length := by rwa [length_leBytes]
    exact (sparseGet_writeBytes_inside hwf pa.toNat _ k hk').trans (getElem_leBytes s.busB len.bytes k hk')
  · exact sparseGet_writeBytes_outside s.mem _ (by rwa [length_leBytes])

/-- Settles O20: the bytes stored are the bytes read back; and a store that hits no PTE of a walk leaves the walk. -/
theorem storedBytesAreLoaded : Obligations.StoredBytesAreLoaded := by
  intro s t len pa hs hpa hm hx
  obtain ⟨hwf, -⟩ := hs
  obtain rfl := Host.Outcome.next.inj ((execWrite_inPmem hpa hm).symm.trans hx)
  refine ⟨fun vaddr hv => ⟨leWord (leBytes len.bytes s.busB), toNat_leWord_leBytes _ _ (bytes_le_four len), ?_⟩,
    fun hr => physAddr_congr rfl rfl fun a ha => pteRead_writeBytes rfl rfl (by rw [length_leBytes]; exact hr a ha)⟩
  intro r u
  have hback : readBytes r.mem pa.toNat len.bytes = leBytes len.bytes s.busB := by
    have h := readBytes_writeBytes hwf pa.toNat (leBytes len.bytes s.busB)
    rwa [length_leBytes] at h
  have h : loadVirtual len r = .next u := by
    rw [loadVirtual_inPmem (s := r) hv ((inPmem_iff_inGuestMemory _ _ _).mpr hm), hback]
    rfl
  exact ⟨h, h⟩

/-- Settles O21: an address the walk refuses, or one that no region serves, stops a load and a store alike. -/
theorem accessesHaltWithoutEffect : Obligations.AccessesHaltWithoutEffect :=
  fun _ _ =>
    ⟨fun _ hf => ⟨loadVirtual_of_error hf, loadVirtual_of_error hf, execWrite_of_error hf⟩,
      fun _ hpa hm hd =>
        ⟨loadVirtual_outside hpa hm hd, loadVirtual_outside hpa hm hd, execWrite_outside hpa hm hd⟩⟩

theorem leBytes_eq_map_byteOf (n : Nat) (v : Word) : leBytes n v = (List.range n).map (byteOf v) :=
  List.ext_getElem (by simp) fun k hk _ => by simp [getElem_leBytes v n k hk]

/-- Settles O22: the device's word is cut to the access's length, and a store to it is only recorded. -/
theorem deviceAccessesComplete : Obligations.DeviceAccessesComplete := by
  intro s len pa hpa hm hd
  have hload := loadVirtual_inDevice hpa hm hd
  refine ⟨_, toNat_leWord_leBytes len.bytes _ (bytes_le_four len), hload, hload, ?_⟩
  rw [← leBytes_eq_map_byteOf]
  exact execWrite_inDevice hpa hm hd

end Sys2Proof.Machine
end

section
/-! PROOFS. Copies between the block and reference memory (20_memory.md R53, 42_cosim.md R107, R108; O37). -/

namespace Sys2Proof.Machine

theorem refMemcpyTo_badSize {bytes : List Byte} {len : Nat} (h : bytes.length ≠ len) (addr : Word) (s : State) :
    refMemcpyTo addr bytes len s = .error (.foreignCallSize, s) :=
  if_neg h

theorem refMemcpyFrom_badSize {len size : Nat} (h : size ≠ len) (addr : Word) (s : State) :
    refMemcpyFrom addr len size s = .error (.foreignCallSize, s) :=
  if_neg h

/-- Settles O37: the calls complete, so the bytes read are the bytes written, and guest memory is no part of a copy. -/
theorem refMemcpyCopiesExactly : Obligations.RefMemcpyCopiesExactly := by
  refine ⟨fun s t addr bytes hr hc hl ht => ?_, fun s addr bytes len h => refMemcpyTo_badSize h addr s,
    fun s addr len size h => refMemcpyFrom_badSize h addr s⟩
  obtain ⟨⟨hwf, -⟩, -⟩ := hr
  have hto := Except.ok.inj ((refMemcpyTo_complete hc addr rfl).symm.trans ht)
  have hstored : t.ref.mem = writeBytesWrap s.ref.mem addr bytes := by rw [← hto]
  have hct : t.CallsComplete := by
    rw [← hto]
    exact hc.tail
  have hfrom := refMemcpyFrom_complete hct addr (n := bytes.length) rfl
  rw [hstored, readBytesWrap_writeBytesWrap hwf addr bytes hl] at hfrom
  exact ⟨_, hfrom, rfl, by rw [← hto]⟩

end Sys2Proof.Machine
end

section
/-! PROOFS. The snapshot (20_memory.md R60): its layout byte by byte (O60), and that a load inverts a save (O59). The
image is a list of words and then guest memory; both statements read it through the one list of words. -/

namespace Sys2Proof.Machine

/-! ### Words laid out one after the other -/

/-- The four bytes of word `i` stand at offset 4i. -/
theorem take_drop_wordsBytes {ws : List Word} {i : Nat} {w : Word} (h : ws[i]? = some w) (rest : List Byte) :
    ((wordsBytes ws ++ rest).drop (4 * i)).take 4 = leBytes 4 w := by
  induction ws generalizing i with
  | nil => cases h
  | cons v vs ih =>
    have hcons : wordsBytes (v :: vs) ++ rest = leBytes 4 v ++ (wordsBytes vs ++ rest) := by simp [wordsBytes]
    rw [hcons]
    cases i with
    | zero =>
      obtain rfl := Option.some.inj h
      exact List.take_left' (length_leBytes 4 v)
    | succ i =>
      rw [Nat.mul_succ, Nat.add_comm, ← List.drop_drop, List.drop_left' (length_leBytes 4 v)]
      exact ih h

theorem wordAt_wordsBytes {ws : List Word} {i : Nat} {w : Word} (h : ws[i]? = some w) (rest : List Byte) :
    wordAt (wordsBytes ws ++ rest) (4 * i) = w := by
  rw [wordAt, take_drop_wordsBytes h, leWord_leBytes_four]

theorem getElem?_wordsBytes {ws : List Word} {i k : Nat} {w : Word} (h : ws[i]? = some w) (hk : k < 4)
    (rest : List Byte) : (wordsBytes ws ++ rest)[4 * i + k]? = some (byteOf w k) := by
  have hk' : k < (leBytes 4 w).length := by rwa [length_leBytes]
  rw [← List.getElem?_drop, ← List.getElem?_take_of_lt hk, take_drop_wordsBytes h, List.getElem?_eq_getElem hk',
    getElem_leBytes]

/-! ### The words of a snapshot -/

/-- The words before the memory section: registers, pc, the CSRs (20_memory.md R60). -/
def snapshotWords (s : State) : List Word := s.gpr ++ s.pc :: csrWords s.csr

/-- Guest memory as the layout holds it: every byte that exists, in the order of the addresses. -/
def snapshotMem (s : State) : List Byte := readBytes s.mem s.cfg.pmemBase.toNat (pmemCount s.cfg)

theorem snapshotOf_eq (s : State) : snapshotOf s = wordsBytes (snapshotWords s) ++ snapshotMem s := by
  simp [snapshotOf, snapshotWords, snapshotMem, imageWords, State.liveImage, wordsBytes]

/-- Under legal parameters all of guest memory exists (00_scope.md R10, 20_memory.md R46). -/
theorem pmemCount_of_legal {c : Config} (h : c.Legal) : pmemCount c = c.pmemSize := by
  obtain ⟨-, -, -, hend⟩ := h
  rw [pmemCount, pmemEnd, Nat.min_eq_left hend, Nat.add_sub_cancel_left]

section Layout

variable {s : State} (hg : s.gpr.length = s.cfg.nrGpr.count)
include hg

theorem length_wordsBytes_snapshotWords : (wordsBytes (snapshotWords s)).length = pmemOffset s.cfg := by
  rw [length_wordsBytes, snapshotWords, List.length_append, hg]
  show 4 * (s.cfg.nrGpr.count + 7) = 4 * s.cfg.nrGpr.count + 28
  omega

theorem length_snapshotOf : (snapshotOf s).length = pmemOffset s.cfg + pmemCount s.cfg := by
  rw [snapshotOf_eq, List.length_append, length_wordsBytes_snapshotWords hg, snapshotMem, length_readBytes]

theorem drop_snapshotOf : (snapshotOf s).drop (pmemOffset s.cfg) = snapshotMem s := by
  rw [snapshotOf_eq]
  exact List.drop_left' (length_wordsBytes_snapshotWords hg)

theorem snapshotWords_gpr {i : Nat} (hi : i < s.cfg.nrGpr.count) :
    (snapshotWords s)[i]? = some (readGpr s.gpr i) := by
  rw [← hg] at hi
  rw [snapshotWords, List.getElem?_append_left hi, readGpr, List.getD_eq_getElem _ _ hi, List.getElem?_eq_getElem hi]

/-- Past the registers come pc and the CSRs. -/
theorem snapshotWords_afterGpr (j : Nat) :
    (snapshotWords s)[s.cfg.nrGpr.count + j]? = (s.pc :: csrWords s.csr)[j]? := by
  rw [snapshotWords, ← hg, List.getElem?_append_right (Nat.le_add_right _ _), Nat.add_sub_cancel_left]

theorem wordAt_snapshotOf_gpr {i : Nat} (hi : i < s.cfg.nrGpr.count) :
    wordAt (snapshotOf s) (4 * i) = readGpr s.gpr i := by
  rw [snapshotOf_eq, wordAt_wordsBytes (snapshotWords_gpr hg hi)]

theorem wordAt_snapshotOf_afterGpr {j : Nat} {w : Word} (h : (s.pc :: csrWords s.csr)[j]? = some w) :
    wordAt (snapshotOf s) (4 * s.cfg.nrGpr.count + 4 * j) = w := by
  rw [snapshotOf_eq, ← Nat.mul_add, wordAt_wordsBytes ((snapshotWords_afterGpr hg j).trans h)]

theorem getElem?_snapshotOf_gpr {i k : Nat} (hi : i < s.cfg.nrGpr.count) (hk : k < 4) :
    (snapshotOf s)[4 * i + k]? = some (byteOf (readGpr s.gpr i) k) := by
  rw [snapshotOf_eq, getElem?_wordsBytes (snapshotWords_gpr hg hi) hk]

theorem getElem?_snapshotOf_afterGpr {j k : Nat} {w : Word} (h : (s.pc :: csrWords s.csr)[j]? = some w)
    (hk : k < 4) : (snapshotOf s)[4 * s.cfg.nrGpr.count + 4 * j + k]? = some (byteOf w k) := by
  rw [snapshotOf_eq, ← Nat.mul_add, getElem?_wordsBytes ((snapshotWords_afterGpr hg j).trans h) hk]

theorem getElem?_snapshotOf_mem {k : Nat} (hk : k < pmemCount s.cfg) :
    (snapshotOf s)[pmemOffset s.cfg + k]? = some (s.byteAt (s.cfg.pmemBase.toNat + k)) := by
  have hk' : k < (snapshotMem s).length := by rwa [snapshotMem, length_readBytes]
  rw [← List.getElem?_drop, drop_snapshotOf hg, List.getElem?_eq_getElem hk']
  exact congrArg some (getElem_readBytes _ _ _ _ hk')

theorem wordAt_snapshotOf_zero : wordAt (snapshotOf s) 0 = readGpr s.gpr 0 :=
  wordAt_snapshotOf_gpr hg (nrGpr_count_pos _)

/-- What the layout says of the registers is the register file. -/
theorem map_wordAt_snapshotOf :
    (List.range s.cfg.nrGpr.count).map (fun i => wordAt (snapshotOf s) (4 * i)) = s.gpr := by
  refine List.ext_getElem (by simp [hg]) fun i h1 h2 => ?_
  rw [List.getElem_map, List.getElem_range, wordAt_snapshotOf_gpr hg (hg ▸ h2), readGpr, List.getD_eq_getElem _ _ h2]

theorem snapshotCsrs_snapshotOf : snapshotCsrs s.cfg (snapshotOf s) = s.csr := by
  simp only [snapshotCsrs, csrOffset]
  rw [wordAt_snapshotOf_afterGpr hg (j := 1) rfl, wordAt_snapshotOf_afterGpr hg (j := 2) rfl,
    wordAt_snapshotOf_afterGpr hg (j := 3) rfl, wordAt_snapshotOf_afterGpr hg (j := 4) rfl,
    wordAt_snapshotOf_afterGpr hg (j := 5) rfl, wordAt_snapshotOf_afterGpr hg (j := 6) rfl]

end Layout

/-! ### Guest memory out and in -/

/-- A key that is not listed reads as 0. -/
theorem sparseGet_of_not_listed {w : Nat} {m : Sparse w} {k : Nat} (h : ∀ c ∈ m, c.1 ≠ k) : sparseGet m k = 0#w := by
  induction m with
  | nil => rfl
  | cons c rest ih =>
    obtain ⟨ha, hr⟩ := List.forall_mem_cons.mp h
    rw [sparseGet, if_neg (Ne.symm ha)]
    exact ih hr

/-- A canonical memory that lists only addresses of a range is what is stored when the range is copied. -/
theorem writeBytes_readBytes {m : Memory} (hm : Memory.wf m) {a n : Nat} (h : ∀ c ∈ m, a ≤ c.1 ∧ c.1 < a + n) :
    writeBytes [] a (readBytes m a n) = m := by
  refine sparse_ext (writeBytes_wf sparseWf_nil _ _) hm fun k => ?_
  by_cases hk : a ≤ k ∧ k < a + n
  · obtain ⟨j, rfl⟩ := Nat.exists_eq_add_of_le hk.1
    have hj : j < (readBytes m a n).length := by
      rw [length_readBytes]
      omega
    rw [sparseGet_writeBytes_inside sparseWf_nil a _ j hj, getElem_readBytes]
  · rw [sparseGet_writeBytes_outside _ _ (by rw [length_readBytes]; omega),
      sparseGet_of_not_listed fun c hc (he : c.1 = k) => hk (he ▸ h c hc), sparseGet_nil]

theorem writeBytes_snapshotMem {s : State} (h : s.MemFits) :
    writeBytes [] s.cfg.pmemBase.toNat (snapshotMem s) = s.mem := by
  obtain ⟨hwf, hr⟩ := h
  refine writeBytes_readBytes hwf fun c hc => ?_
  have := hr c hc
  rw [pmemCount]
  omega

/-! ### Save and load -/

/-- Settles O59, section by section of the layout. -/
theorem snapshotLoadInvertsSave : Obligations.SnapshotLoadInvertsSave := by
  intro s u hs hu
  obtain ⟨⟨hg, -⟩, hm, -, -, h0⟩ := hs
  have hpc : wordAt (snapshotOf s) (4 * s.cfg.nrGpr.count) = s.pc := wordAt_snapshotOf_afterGpr hg (j := 0) rfl
  rw [loadSnapshot, hu, if_pos (length_snapshotOf hg), if_pos ((wordAt_snapshotOf_zero hg).trans h0),
    map_wordAt_snapshotOf hg, hpc, snapshotCsrs_snapshotOf hg,
    drop_snapshotOf hg, writeBytes_snapshotMem hm]

/-- Settles O60: word j after the registers stands at offset 4·NR_GPR + 4j. -/
theorem snapshotHasTheStatedLayout : Obligations.SnapshotHasTheStatedLayout := by
  intro s hf hlegal n image
  obtain ⟨hg, -⟩ := hf
  have hcount := pmemCount_of_legal hlegal
  refine ⟨?_, fun i hi k hk => getElem?_snapshotOf_gpr hg hi hk, fun k hk => ?_, fun k hk => ?_, fun h0 u hu => ?_⟩
  · rw [length_snapshotOf hg, hcount]
    rfl
  · have word (j : Nat) {w : Word} (h : (s.pc :: csrWords s.csr)[j]? = some w) :
        image[n + 4 * j + k]? = some (byteOf w k) := getElem?_snapshotOf_afterGpr hg h hk
    exact ⟨word 0 rfl, word 1 rfl, word 2 rfl, word 3 rfl, word 4 rfl, word 5 rfl, word 6 rfl⟩
  · exact getElem?_snapshotOf_mem hg (hcount ▸ hk)
  · rw [loadSnapshot, hu, if_pos (length_snapshotOf hg), if_neg]
    rwa [wordAt_snapshotOf_zero hg]

end Sys2Proof.Machine
end

section
/-! PROOFS. The encoding (30_encoding.md). Decoder and encoder are inverse to each other, said once for both ports as
`decode_eq_ok_iff`; from it the two round trips (O1, O2). -/

namespace Sys2Proof

/-! ### The fields each kind of command uses -/

/-- A check before a value: the value is answered exactly when the check holds. -/
theorem ite_error_eq_ok {ε α : Type} {p : Prop} [Decidable p] {x : Except ε α} {e : ε} {a : α} :
    (if p then x else .error e) = .ok a ↔ p ∧ x = .ok a := by
  split <;> simp_all

section Uses
variable {f : CommandFields} {i : Instr} (h : f.rsv = 0)
include h

theorem usesKindLen_eq_ok {mk : AccessKind → AccessLen → Instr} :
    usesKindLen f mk = .ok i ↔
      ∃ k n, f = { bareFields f.op with kind := kindCode k, len := lenCode n } ∧ mk k n = i := by
  obtain ⟨op, kind, len, csr, reg, rsv⟩ := f
  cases h
  simp only [usesKindLen, ite_error_eq_ok, bareFields, CommandFields.mk.injEq, ← decodeKind_eq_ok,
    ← decodeLen_eq_ok]
  cases decodeKind kind <;> cases decodeLen len <;> simp [and_assoc]

theorem usesLen_eq_ok {mk : AccessLen → Instr} :
    usesLen f mk = .ok i ↔ ∃ n, f = { bareFields f.op with len := lenCode n } ∧ mk n = i := by
  obtain ⟨op, kind, len, csr, reg, rsv⟩ := f
  cases h
  simp only [usesLen, ite_error_eq_ok, bareFields, CommandFields.mk.injEq, ← decodeLen_eq_ok]
  cases decodeLen len <;> simp [and_assoc]

theorem usesCsr_eq_ok {mk : BitVec 12 → Instr} :
    usesCsr f mk = .ok i ↔ ∃ c, f = { bareFields f.op with csr := c } ∧ mk c = i := by
  obtain ⟨op, kind, len, csr, reg, rsv⟩ := f
  cases h
  simp [usesCsr, ite_error_eq_ok, bareFields, and_assoc]

theorem usesReg_eq_ok {mk : BitVec 5 → Instr} :
    usesReg f mk = .ok i ↔ ∃ r, f = { bareFields f.op with reg := r } ∧ mk r = i := by
  obtain ⟨op, kind, len, csr, reg, rsv⟩ := f
  cases h
  simp [usesReg, ite_error_eq_ok, bareFields, and_assoc]

theorem usesNone_eq_ok {j : Instr} : usesNone f j = .ok i ↔ f = bareFields f.op ∧ j = i := by
  obtain ⟨op, kind, len, csr, reg, rsv⟩ := f
  cases h
  simp [usesNone, ite_error_eq_ok, bareFields, and_assoc]

end Uses

/-! ### Fields and instructions -/

/-- The fields of a command's word decode to it (30_encoding.md R65). -/
theorem decodeFields_encode {i : Instr} (h : i.port = .command) : decodeFields (commandFields (encode i)) = .ok i := by
  cases i with
  | csrw c r => cases h
  | check k n | translate k n =>
    rw [encode, commandFields_commandWord]
    cases k <;> cases n <;> rfl
  | ifetch n | read n | write n =>
    rw [encode, commandFields_commandWord]
    cases n <;> rfl
  | _ =>
    rw [encode, commandFields_commandWord]
    rfl

/-- What fields decode to is a command whose word they make up (30_encoding.md R65, R68). -/
theorem encode_of_decodeFields {f : CommandFields} {i : Instr} (h : decodeFields f = .ok i) :
    i.port = .command ∧ encode i = commandWord f := by
  obtain ⟨hrsv, h⟩ := ite_error_eq_ok.mp h
  have op_eq {n : Nat} (hn : f.op.toNat = n) : f.op = BitVec.ofNat 5 n := by
    rw [← hn, BitVec.ofNat_toNat, BitVec.setWidth_eq]
  split at h
  case h_1 hop | h_2 hop =>
    obtain ⟨k, n, hf, rfl⟩ := (usesKindLen_eq_ok hrsv).mp h
    rw [hf, op_eq hop]
    exact ⟨rfl, rfl⟩
  case h_3 hop | h_4 hop | h_5 hop =>
    obtain ⟨n, hf, rfl⟩ := (usesLen_eq_ok hrsv).mp h
    rw [hf, op_eq hop]
    exact ⟨rfl, rfl⟩
  case h_8 hop | h_9 hop =>
    obtain ⟨c, hf, rfl⟩ := (usesCsr_eq_ok hrsv).mp h
    rw [hf, op_eq hop]
    exact ⟨rfl, rfl⟩
  case h_13 hop | h_14 hop =>
    obtain ⟨r, hf, rfl⟩ := (usesReg_eq_ok hrsv).mp h
    rw [hf, op_eq hop]
    exact ⟨rfl, rfl⟩
  case h_19 => cases h
  all_goals
    rename_i hop
    obtain ⟨hf, rfl⟩ := (usesNone_eq_ok hrsv).mp h
    rw [hf, op_eq hop]
    exact ⟨rfl, rfl⟩

/-- The decoder and the encoder are inverse, at either port (30_encoding.md R65, R68, R73). -/
theorem decode_eq_ok_iff {p : Port} {w : Word} {i : Instr} : decode p w = .ok i ↔ i.port = p ∧ encode i = w := by
  cases p with
  | command =>
    refine ⟨fun h => ?_, fun ⟨hp, hw⟩ => hw ▸ decodeFields_encode hp⟩
    rw [← commandWord_commandFields w]
    exact encode_of_decodeFields h
  | reference =>
    refine ⟨fun h => ?_, fun ⟨hp, hw⟩ => ?_⟩
    · obtain ⟨⟨hop, hrd, hf3⟩, hi⟩ := ite_error_eq_ok.mp h
      cases hi
      refine ⟨rfl, ?_⟩
      rw [encode, ← hop, ← hrd, ← hf3]
      exact csrrwWord_csrrwFields w
    · cases i with
      | csrw c r => exact hw ▸ decode_reference_encode_csrw c r
      | _ => cases hp

/-- Settles O1: a word decodes to the instruction at whose port it is the word. -/
theorem encodedInstructionDecodesBack : Obligations.EncodedInstructionDecodesBack :=
  fun _ => decode_eq_ok_iff.mpr ⟨rfl, rfl⟩

/-- Settles O2, the other direction of the same equivalence. -/
theorem decodedWordIsTheInstructionsWord : Obligations.DecodedWordIsTheInstructionsWord :=
  fun _ _ _ => decode_eq_ok_iff.mp

end Sys2Proof
end

section
/-! PROOFS. Words as numbers (O4), which words are refused (O6), and a command's way from the queue or from
withFetchWord into the step (O7, O9). The vector words (O3) come first. -/

namespace Sys2Proof

/-- Settles O3: each word is its instruction's. -/
theorem vectorWordsDecode : Obligations.VectorWordsDecode := by
  refine ⟨?_, ?_, ?_, ?_, ?_, ?_, ?_, ?_, ?_⟩ <;> exact decode_eq_ok_iff.mpr ⟨rfl, rfl⟩

/-! ### Words as numbers -/

/-- The fields of a command word as numbers (30_encoding.md R62). -/
theorem toNat_commandFields (w : Word) :
    (commandFields w).op.toNat = w.toNat % 2 ^ 5 ∧ (commandFields w).kind.toNat = w.toNat / 2 ^ 5 % 2 ^ 2 ∧
      (commandFields w).len.toNat = w.toNat / 2 ^ 7 % 2 ^ 4 ∧ (commandFields w).csr.toNat = w.toNat / 2 ^ 11 % 2 ^ 12 ∧
      (commandFields w).reg.toNat = w.toNat / 2 ^ 23 % 2 ^ 5 ∧ (commandFields w).rsv.toNat = w.toNat / 2 ^ 28 := by
  have := w.isLt
  simp [commandFields, Nat.shiftRight_eq_div_pow]
  omega

/-- The fields of a guest word as numbers (30_encoding.md R73). -/
theorem toNat_csrrwFields (w : Word) :
    (csrrwFields w).opcode.toNat = w.toNat % 2 ^ 7 ∧ (csrrwFields w).rd.toNat = w.toNat / 2 ^ 7 % 2 ^ 5 ∧
      (csrrwFields w).funct3.toNat = w.toNat / 2 ^ 12 % 2 ^ 3 ∧ (csrrwFields w).rs1.toNat = w.toNat / 2 ^ 15 % 2 ^ 5 ∧
      (csrrwFields w).csr.toNat = w.toNat / 2 ^ 20 := by
  have := w.isLt
  simp [csrrwFields, Nat.shiftRight_eq_div_pow]
  omega

/-- Settles O4: the word is the one whose fields are those. -/
theorem bootstrapWordFormat : Obligations.BootstrapWordFormat := by
  intro csr rs1
  obtain ⟨hopcode, hrd, hfunct3, hrs1, hcsr⟩ := toNat_csrrwFields (encode (.csrw csr rs1))
  rw [encode, csrrwFields_csrrwWord] at hopcode hrd hfunct3 hrs1 hcsr
  simp at hopcode hrd hfunct3 hrs1 hcsr
  rw [encode]
  omega

namespace Machine

/-- LegalCommandWord on the fields of a word (30_encoding.md R65, R66, R68). -/
def LegalFields (c : Config) (f : CommandFields) : Prop :=
  f.rsv = 0 ∧
    ((f.op ∈ [0x01, 0x02] ∧ f.kind ≠ 3 ∧ f.len ∈ [1, 2, 4] ∧ f.csr = 0 ∧ f.reg = 0) ∨
     (f.op ∈ [0x03, 0x04, 0x05] ∧ f.kind = 0 ∧ f.len ∈ [1, 2, 4] ∧ f.csr = 0 ∧ f.reg = 0) ∨
     (f.op ∈ [0x08, 0x09] ∧ f.kind = 0 ∧ f.len = 0 ∧ f.reg = 0) ∨
     (f.op ∈ [0x0D, 0x0E] ∧ f.kind = 0 ∧ f.len = 0 ∧ f.csr = 0 ∧ f.reg.toNat < c.nrGpr.count) ∨
     (f.op ∈ [0x06, 0x07, 0x0A, 0x0B, 0x0C, 0x0F, 0x10, 0x11, 0x12] ∧ f.kind = 0 ∧ f.len = 0 ∧ f.csr = 0 ∧
       f.reg = 0))

theorem legalCommandWord_iff_legalFields (c : Config) (w : Word) :
    LegalCommandWord c w ↔ LegalFields c (commandFields w) := by
  obtain ⟨hop, hkind, hlen, hcsr, hreg, hrsv⟩ := toNat_commandFields w
  simp only [LegalCommandWord, ← hop, ← hkind, ← hlen, ← hcsr, ← hreg, ← hrsv]
  simp [LegalFields, ← BitVec.toNat_inj]

/-- The one-hot lengths are the codes of lengths (30_encoding.md R66). -/
theorem mem_lenCodes_iff {n : BitVec 4} : n ∈ [1, 2, 4] ↔ ∃ l, n = lenCode l := by
  refine ⟨fun h => ?_, ?_⟩
  · obtain rfl | rfl | rfl : n = 1 ∨ n = 2 ∨ n = 4 := by simpa using h
    exacts [⟨.b1, rfl⟩, ⟨.b2, rfl⟩, ⟨.b4, rfl⟩]
  · rintro ⟨_ | _ | _, rfl⟩ <;> decide

/-- Every kind but 3 is the code of an access kind (30_encoding.md R66). -/
theorem ne_three_iff_kindCode {k : BitVec 2} : k ≠ 3 ↔ ∃ a, k = kindCode a := by
  refine ⟨fun h => ?_, ?_⟩
  · obtain rfl | rfl | rfl : k = 0 ∨ k = 1 ∨ k = 2 := by bv_omega
    exacts [⟨.ifetch, rfl⟩, ⟨.read, rfl⟩, ⟨.write, rfl⟩]
  · rintro ⟨_ | _ | _, rfl⟩ <;> decide

/-- Legal fields are those of a well-formed command. -/
theorem LegalFields.exists_command {c : Config} {f : CommandFields} (h : LegalFields c f) :
    ∃ i : Instr, i.port = .command ∧ encode i = commandWord f ∧ i.wellFormed c = true := by
  obtain ⟨op, kind, len, csr, reg, rsv⟩ := f
  simp only [LegalFields, ne_three_iff_kindCode, mem_lenCodes_iff] at h
  simp only [List.mem_cons, List.not_mem_nil, or_false] at h
  obtain ⟨rfl, ⟨hop, ⟨k, rfl⟩, ⟨n, rfl⟩, rfl, rfl⟩ | ⟨hop, rfl, ⟨n, rfl⟩, rfl, rfl⟩ | ⟨hop, rfl, rfl, rfl⟩ |
    ⟨hop, rfl, rfl, rfl, hreg⟩ | ⟨hop, rfl, rfl, rfl, rfl⟩⟩ := h
  · obtain rfl | rfl := hop
    exacts [⟨.check k n, rfl, rfl, rfl⟩, ⟨.translate k n, rfl, rfl, rfl⟩]
  · obtain rfl | rfl | rfl := hop
    exacts [⟨.ifetch n, rfl, rfl, rfl⟩, ⟨.read n, rfl, rfl, rfl⟩, ⟨.write n, rfl, rfl, rfl⟩]
  · obtain rfl | rfl := hop
    exacts [⟨.csrGet csr, rfl, rfl, rfl⟩, ⟨.csrSet csr, rfl, rfl, rfl⟩]
  · obtain rfl | rfl := hop
    exacts [⟨.gprRead reg, rfl, rfl, decide_eq_true hreg⟩, ⟨.gprWrite reg, rfl, rfl, decide_eq_true hreg⟩]
  · obtain rfl | rfl | rfl | rfl | rfl | rfl | rfl | rfl | rfl := hop
    exacts [⟨.raise, rfl, rfl, rfl⟩, ⟨.query, rfl, rfl, rfl⟩, ⟨.attach, rfl, rfl, rfl⟩, ⟨.detach, rfl, rfl, rfl⟩,
      ⟨.checkRegs, rfl, rfl, rfl⟩, ⟨.pcRead, rfl, rfl, rfl⟩, ⟨.pcWrite, rfl, rfl, rfl⟩, ⟨.irqEdge, rfl, rfl, rfl⟩,
      ⟨.step, rfl, rfl, rfl⟩]

/-- The fields of a well-formed command are legal. -/
theorem legalFields_encode {c : Config} {i : Instr} (hp : i.port = .command) (hwf : i.wellFormed c = true) :
    LegalFields c (commandFields (encode i)) := by
  cases i with
  | csrw => cases hp
  | check k n | translate k n =>
    rw [encode, commandFields_commandWord]
    cases k <;> cases n <;> simp [LegalFields, bareFields, kindCode, lenCode]
  | ifetch n | read n | write n =>
    rw [encode, commandFields_commandWord]
    cases n <;> simp [LegalFields, bareFields, lenCode]
  | gprRead g | gprWrite g =>
    rw [encode, commandFields_commandWord]
    simpa [LegalFields, bareFields, Instr.wellFormed] using hwf
  | _ =>
    rw [encode, commandFields_commandWord]
    simp [LegalFields, bareFields]

/-- The legal words are those of the well-formed commands (30_encoding.md R66, R68). -/
theorem legalCommandWord_iff_decode {c : Config} {w : Word} :
    LegalCommandWord c w ↔ ∃ i, decode .command w = .ok i ∧ i.wellFormed c = true := by
  simp only [legalCommandWord_iff_legalFields, decode_eq_ok_iff]
  constructor
  · intro h
    obtain ⟨i, hp, hw, hwf⟩ := h.exists_command
    exact ⟨i, ⟨hp, hw.trans (commandWord_commandFields w)⟩, hwf⟩
  · rintro ⟨i, ⟨hp, rfl⟩, hwf⟩
    exact legalFields_encode hp hwf

/-! ### Refusals -/

/-- No instruction is refused but at a register port or as a STEP (60_exceptions.md R123). -/
theorem exec_isNext {i : Instr} (hr : ∀ g, i ≠ .gprRead g) (hw : ∀ g, i ≠ .gprWrite g) (hs : i ≠ .step)
    (s : State) : ∃ t, exec i s = .next t := by
  cases i with
  | gprRead g => exact absurd rfl (hr g)
  | gprWrite g => exact absurd rfl (hw g)
  | step => exact absurd rfl hs
  | check | raise | detach | checkRegs | pcRead | pcWrite | irqEdge | csrw => exact ⟨_, rfl⟩
  | translate | ifetch | read | write | query | csrGet | csrSet | attach =>
    simp only [exec, execTranslate, execIfetch, execRead, loadVirtual, execWrite, execQuery, execCsrGet, execCsrSet,
      execAttach]
    repeat' split
    all_goals exact ⟨_, rfl⟩

/-- Why an instruction is refused (60_exceptions.md R123): its register does not exist, it would make x0 non-zero, or it
is a STEP of no instruction. -/
theorem exec_eq_refused_iff {i : Instr} {s : State} {r : Refusal} :
    exec i s = .refused r ↔
      (r = .illegalCommand ∧ i.port = .command ∧ i.wellFormed s.cfg = false) ∨
      (r = .x0Write ∧ i = .gprWrite 0 ∧ s.busA ≠ 0) ∨ (r = .badCount ∧ i = .step ∧ s.busA = 0) := by
  have isNext := fun hr hw hs => exec_isNext (i := i) hr hw hs s
  cases i with
  | gprRead g =>
    simp only [exec, execGprRead]
    split <;> simp_all [Instr.port, Instr.wellFormed, @eq_comm _ r]
  | gprWrite g =>
    simp only [exec, execGprWrite]
    split
    · split <;> simp_all [Instr.port, Instr.wellFormed, @eq_comm _ r]
    · next hg =>
      have h0 : g ≠ 0 := by
        rintro rfl
        exact hg (lt_of_lt_of_le (by decide) (nrGpr_pos s.cfg.nrGpr))
      simp_all [Instr.port, Instr.wellFormed, @eq_comm _ r]
  | step =>
    simp only [exec, execStep]
    repeat' split
    all_goals simp_all [Instr.port, Instr.wellFormed, @eq_comm _ r]
  | _ =>
    obtain ⟨t, ht⟩ := isNext (by simp) (by simp) (by simp)
    rw [ht]
    simp [Instr.port, Instr.wellFormed]

/-- Settles O6: a word that decodes is refused as illegal only for its register's number, and it is legal otherwise. -/
theorem illegalCommandsAreRefused : Obligations.IllegalCommandsAreRefused := by
  intro s w a b rest hq
  refine ⟨fun hh => ?_, fun hh => by simp [step, hq, takeEvent, takeCommand, hh]⟩
  rw [legalCommandWord_iff_decode]
  cases hd : decode .command w with
  | error e => simp [step, hq, takeEvent, takeCommand, hh, hd]
  | ok i =>
    rw [step_of_command hq hh hd, exec_eq_refused_iff]
    simp [port_of_decode_command hd]

/-- Settles O7: it is `step_of_command`. -/
theorem stepRunsTheDecodedCommand : Obligations.StepRunsTheDecodedCommand :=
  fun _ _ _ _ _ _ => step_of_command

/-! ### The way in -/

/-- A guest word is no command: its bits 4:0 are the reserved command code 0x13 (30_encoding.md R68, R73). -/
theorem decode_command_encode_csrw (c : BitVec 12) (g : BitVec 5) (i : Instr) :
    decode .command (encode (.csrw c g)) ≠ .ok i := by
  have hop : (commandFields (encode (.csrw c g))).op = 0x13#5 := by
    apply BitVec.eq_of_toNat_eq
    rw [(toNat_commandFields _).1, bootstrapWordFormat c g]
    simp
    omega
  simp [decode, decodeFields, ite_error_eq_ok, hop]

/-- A command's word is taken at the request channel. -/
theorem portOfWord_encode_command {i : Instr} (h : i.port = .command) : portOfWord (encode i) = .command := by
  rw [portOfWord]
  split
  · next j hd =>
    obtain ⟨hp, hw⟩ := decode_eq_ok_iff.mp hd
    have hi : decode .command (encode j) = .ok i := decode_eq_ok_iff.mpr ⟨h, hw.symm⟩
    cases j with
    | csrw c g => exact absurd hi (decode_command_encode_csrw c g i)
    | _ => cases hp
  · rfl

/-- A command other than STEP is offered with bus A as it stands. -/
theorem offeredA_encode {i : Instr} (h : i.port = .command) (hs : i ≠ .step) (s : State) :
    offeredA (encode i) s = s.busA := by
  rw [offeredA, decode_eq_ok_iff.mpr ⟨h, rfl⟩, if_neg]
  simp [hs]

/-- Settles O9: the word goes to the front of the queue with the buses as they stand, and the step takes it off. -/
theorem offeredCommandIsTheNextInstruction : Obligations.OfferedCommandIsTheNextInstruction := by
  intro s i hh hp hs
  have hoffer : s.withFetchWord 32 (encode i).toNat = s.offerCommand (encode i) := by
    rw [State.withFetchWord, BitVec.ofNat_toNat, BitVec.setWidth_eq, portOfWord_encode_command hp]
  have hq : (s.offerCommand (encode i)).queue = .command (encode i) s.busA s.busB :: s.queue := by
    rw [State.offerCommand, offeredA_encode hp hs]
  rw [hoffer, step_of_command hq hh (decode_eq_ok_iff.mpr ⟨hp, rfl⟩)]
  rfl

end Machine
end Sys2Proof
end

section
/-! PROOFS. What a response looks like (O51) and which bus an instruction reads (O52). -/

namespace Sys2Proof

/-- Which instructions read operand A (30_encoding.md R63). -/
def Instr.readsBusA : Instr → Bool
  | .translate _ _ | .ifetch _ | .read _ | .write _ | .raise | .csrSet _ | .gprWrite _ | .pcWrite | .step => true
  | .check _ _ | .query | .csrGet _ | .attach | .detach | .checkRegs | .gprRead _ | .pcRead | .irqEdge | .csrw _ _ =>
    false

/-- Which instructions read operand B (30_encoding.md R63). -/
def Instr.readsBusB : Instr → Bool
  | .write _ | .raise | .checkRegs | .step => true
  | .check _ _ | .translate _ _ | .ifetch _ | .read _ | .query | .csrGet _ | .csrSet _ | .attach | .detach
  | .gprRead _ | .gprWrite _ | .pcRead | .pcWrite | .irqEdge | .csrw _ _ => false

namespace Machine

/-- Settles O51: what an instruction can do, each way with the response it leaves. -/
theorem responsesHaveTheirShape : Obligations.ResponsesHaveTheirShape := by
  intro i s t hx hp
  cases exec_effect hx with
  | guest => cases hp
  | delivers => exact ⟨_, rfl, fun _ => rfl, by simp, by simp⟩
  | compares => exact ⟨_, rfl, by simp, fun _ => .inl rfl, by simp⟩
  | steps => exact ⟨_, rfl, by simp, fun _ => .inr rfl, by simp⟩
  | _ => exact ⟨_, rfl, by simp, by simp, by simp⟩

/-! ### The operand buses -/

/-- How an outcome changes with the buses. -/
def outcomeWithBuses (o : Host.Outcome State Fault Refusal) (a b : Word) : Host.Outcome State Fault Refusal :=
  match o with
  | .next t => .next (t.withBuses a b)
  | .fault f => .fault f
  | .refused r => .refused r

theorem outcomeWithBuses_ite (p : Prop) [Decidable p] (x y : Host.Outcome State Fault Refusal) (a b : Word) :
    outcomeWithBuses (if p then x else y) a b = if p then outcomeWithBuses x a b else outcomeWithBuses y a b :=
  apply_ite (outcomeWithBuses · a b) p x y

/-- No instruction writes the buses. -/
theorem outcomeWithBuses_exec_self (i : Instr) (s : State) :
    outcomeWithBuses (exec i s) s.busA s.busB = exec i s := by
  cases h : exec i s with
  | next t =>
    obtain ⟨-, -, ha, hb⟩ := (exec_effect h).surroundings
    rw [← ha, ← hb]
    rfl
  | fault | refused => rfl

theorem execAttach_withBuses (s : State) (a b : Word) :
    execAttach (s.withBuses a b) = outcomeWithBuses (execAttach s) a b := by
  unfold execAttach
  rw [attachCalls_withBuses, show (s.withBuses a b).cfg = s.cfg from rfl]
  split
  · rcases attachCalls s with ⟨f, t⟩ | t <;> rfl
  · rfl

theorem loadVirtual_withBusB (len : AccessLen) (s : State) (b : Word) :
    loadVirtual len (s.withBuses s.busA b) = outcomeWithBuses (loadVirtual len s) s.busA b := by
  obtain ⟨t, ht⟩ := exec_isNext (i := .read len) (by simp) (by simp) (by simp) s
  obtain ⟨-, -, ha, -⟩ := (exec_effect ht).surroundings
  change loadVirtual len s = _ at ht
  rw [loadVirtual_next_busB b ht, ht, ← ha]
  rfl

/-- A bus that an instruction does not read does not matter (30_encoding.md R63). -/
theorem exec_withBuses {i : Instr} {s : State} {a b : Word} (ha : i.readsBusA = true → a = s.busA)
    (hb : i.readsBusB = true → b = s.busB) :
    exec i (s.withBuses a b) = outcomeWithBuses (exec i s) a b := by
  cases i with
  | write | raise | step =>
    cases ha rfl
    cases hb rfl
    exact (outcomeWithBuses_exec_self _ s).symm
  | checkRegs =>
    cases hb rfl
    rfl
  | ifetch len | read len =>
    cases ha rfl
    exact loadVirtual_withBusB len s b
  | translate k len =>
    cases ha rfl
    simp only [exec, execTranslate]
    rw [show walk (s.withBuses s.busA b) (s.withBuses s.busA b).busA len = walk s s.busA len from rfl]
    cases (walk s s.busA len).result <;> rfl
  | csrSet n =>
    cases ha rfl
    simp only [exec, execCsrSet]
    cases csrSelect n <;> rfl
  | gprWrite g =>
    cases ha rfl
    simp only [exec, execGprWrite, outcomeWithBuses_ite]
    rfl
  | pcWrite =>
    cases ha rfl
    rfl
  | attach => exact execAttach_withBuses s a b
  | csrw c g => exact congrArg Host.Outcome.next (csrwEffect_withBuses c g s a b)
  | check | detach | pcRead | irqEdge => rfl
  | query | gprRead =>
    simp only [exec, execQuery, execGprRead, outcomeWithBuses_ite]
    rfl
  | csrGet n =>
    simp only [exec, execCsrGet]
    cases csrSelect n <;> rfl

/-- Settles O52: in either clause the other bus stays, and no instruction writes it. -/
theorem unusedBusesAreIgnored : Obligations.UnusedBusesAreIgnored := by
  intro i s v
  refine ⟨fun hi => ?_, fun hi hw => ?_⟩
  · have h : exec i { s with busA := v } = outcomeWithBuses (exec i s) v s.busB := by
      refine exec_withBuses (fun hr => ?_) (fun _ => rfl)
      obtain h | ⟨_, _, rfl⟩ | ⟨_, rfl⟩ | ⟨_, rfl⟩ | ⟨_, _, rfl⟩ := hi
      · have unread : ∀ j ∈ [Instr.query, .attach, .detach, .checkRegs, .pcRead, .irqEdge], j.readsBusA = false := by
          decide
        rw [unread i h] at hr
        cases hr
      all_goals cases hr
    refine ⟨fun t ht => ?_, fun r hr => by rw [h, hr]; rfl⟩
    obtain ⟨-, -, -, hb⟩ := (exec_effect ht).surroundings
    rw [h, ht, ← hb]
    rfl
  · have h : exec i { s with busB := v } = outcomeWithBuses (exec i s) s.busA v := by
      refine exec_withBuses (fun _ => rfl) (fun hr => ?_)
      cases i with
      | write n => exact absurd rfl (hw n)
      | raise | checkRegs | step => exact absurd (by decide) hi
      | _ => cases hr
    refine ⟨fun t ht => ?_, fun r hr => by rw [h, hr]; rfl⟩
    obtain ⟨-, -, ha, -⟩ := (exec_effect ht).surroundings
    rw [h, ht, ← ha]
    rfl

end Machine
end Sys2Proof
end

section
/-! PROOFS. The bootstrap program: its bytes in reference memory (O5), what one `csrw` does (O36), and that under REF-RV
the six of them transfer the six CSRs (O43). -/

namespace Sys2Proof.Machine

/-! ### The bootstrap program in memory -/

/-- A piece of what was stored reads back. -/
theorem readBytesWrap_writeBytesWrap_piece {m : Memory} (hm : Memory.wf m) (a : Word) (bs : List Byte) {k n : Nat}
    (hk : k + n ≤ bs.length) (hl : bs.length ≤ 2 ^ 32) :
    readBytesWrap (writeBytesWrap m a bs) (a + BitVec.ofNat 32 k) n = (bs.drop k).take n := by
  refine List.ext_getElem (by simp; omega) fun j h1 h2 => ?_
  rw [length_readBytesWrap] at h1
  rw [getElem_readBytesWrap, BitVec.add_assoc, ← BitVec.ofNat_add,
    sparseGet_writeBytesWrap_inside hm a bs (k + j) (by omega) hl]
  simp

/-- Instruction `k` of the bootstrap program in memory (30_encoding.md R75). -/
theorem readBytesWrap_bootstrap {m : Memory} (hm : Memory.wf m) (a : Word) {k : Nat} (hk : k < 6) :
    readBytesWrap (writeBytesWrap m a bootstrapBytes) (a + BitVec.ofNat 32 (4 * k)) 4 =
      (bootstrapBytes.drop (4 * k)).take 4 :=
  readBytesWrap_writeBytesWrap_piece hm a bootstrapBytes (by rw [length_bootstrapBytes]; omega)
    (by rw [length_bootstrapBytes]; norm_num)

/-- Settles O5: each word is a piece of the 24 bytes. -/
theorem bootstrapWordsInMemory : Obligations.BootstrapWordsInMemory := by
  refine ⟨rfl, fun m vector hm => ?_⟩
  have word {k : Nat} (hk : k < 6) := readBytesWrap_bootstrap hm vector hk
  have first := word (k := 0) (by decide)
  rw [Nat.mul_zero, BitVec.add_zero] at first
  exact ⟨first, word (k := 1) (by decide), word (k := 2) (by decide), word (k := 3) (by decide),
    word (k := 4) (by decide), word (k := 5) (by decide)⟩

/-! ### One csrw -/

/-- `csrw` under REF-RV (42_cosim.md R109). -/
theorem csrwEffect_refRV {s : State} {csr : BitVec 12} {rs1 : BitVec 5} (hv : s.cfg.ref = .refRV)
    (hr : rs1.toNat < s.cfg.nrGpr.count) :
    csrwEffect csr rs1 s = { s with
      ref := { s.ref with
        csrs := sparseSet s.ref.csrs csr.toNat (Config.legalised s.draws csr (refReg s.ref rs1))
        pc := s.ref.pc + 4 }
      draws := s.draws + 1 } :=
  if_pos ⟨hv, hr⟩

/-- `csrw` on a black box, or from a register the reference has not (42_cosim.md R109). -/
theorem csrwEffect_draws {s : State} {csr : BitVec 12} {rs1 : BitVec 5}
    (h : s.cfg.ref = .blackBox ∨ s.cfg.nrGpr.count ≤ rs1.toNat) : csrwEffect csr rs1 s = s.drawEngine := by
  refine if_neg fun ⟨hv, hr⟩ => ?_
  obtain hb | hn := h
  · rw [hb] at hv
    cases hv
  · omega

/-- Settles O36: the CSR map is canonical, so the value written is read back and no other one changes. -/
theorem csrwWritesTheReferenceCsr : Obligations.CsrwWritesTheReferenceCsr := by
  intro s csr rs1 hfit
  obtain ⟨-, hcsrs, -⟩ := hfit
  refine ⟨fun hv hr => ⟨_, congrArg Host.Outcome.next (csrwEffect_refRV hv hr), ?_, fun n hn => ?_, rfl, rfl⟩,
    fun h => congrArg Host.Outcome.next (csrwEffect_draws h)⟩
  · exact sparseGet_sparseSet_self hcsrs _ _
  · exact sparseGet_sparseSet_ne _ _ hn

/-! ### Several writes to a sparse map -/

/-- Write the listed keys, one after the other. -/
def sparseSetAll {w : Nat} (m : Sparse w) (l : Sparse w) : Sparse w := l.foldl (fun m e => sparseSet m e.1 e.2) m

theorem sparseGet_sparseSetAll_of_notMem {w : Nat} (m : Sparse w) {l : Sparse w} {k : Nat}
    (h : ∀ e ∈ l, k ≠ e.1) : sparseGet (sparseSetAll m l) k = sparseGet m k := by
  induction l generalizing m with
  | nil => rfl
  | cons e rest ih =>
    rw [List.forall_mem_cons] at h
    exact (ih _ h.2).trans (sparseGet_sparseSet_ne m e.2 h.1)

/-- Of keys that are all different, each reads as what was written. -/
theorem sparseGet_sparseSetAll_of_mem {w : Nat} {m l : Sparse w} (hm : SparseWf m)
    (hl : l.Pairwise fun x y => x.1 ≠ y.1) {k : Nat} {v : BitVec w} (h : (k, v) ∈ l) :
    sparseGet (sparseSetAll m l) k = v := by
  induction l generalizing m with
  | nil => cases h
  | cons e rest ih =>
    obtain ⟨he, hrest⟩ := List.pairwise_cons.mp hl
    obtain rfl | h := List.mem_cons.mp h
    · exact (sparseGet_sparseSetAll_of_notMem _ he).trans (sparseGet_sparseSet_self hm k v)
    · exact ih (sparseSet_wf hm e.1 e.2) hrest h

/-! ### The six CSRs -/

/-- The words the reference fetches as it runs the bootstrap program (30_encoding.md R75). -/
theorem decode_bootstrap {m : Memory} (hm : Memory.wf m) (a : Word) {k : Nat} (hk : k < 6) {p : Word}
    (hp : p = a + BitVec.ofNat 32 (4 * k)) :
    decode .reference (leWord (readBytesWrap (writeBytesWrap m a bootstrapBytes) p 4)) =
      .ok bootstrapProgram[k] := by
  subst hp
  rw [readBytesWrap_bootstrap hm a hk]
  interval_cases k <;> rfl

/-- What the reference makes of register `r`, written to CSR `c` by the `k`-th `csrw` from `w` on. -/
def bootValue (w : State) (k : Nat) (c : BitVec 12) (r : Nat) : Word :=
  Config.legalised (w.draws + k) c (readGpr w.ref.gpr r)

/-- What the bootstrap program writes to the reference's CSRs, run from `w` (42_cosim.md R111). -/
def bootWrites (w : State) : Sparse 32 :=
  [(0x300, bootValue w 0 0x300 1), (0x305, bootValue w 1 0x305 2), (0x341, bootValue w 2 0x341 3),
   (0x342, bootValue w 3 0x342 4), (0x340, bootValue w 4 0x340 5), (0x180, bootValue w 5 0x180 6)]

/-- The reference's CSRs after the bootstrap program, run from `w`. -/
def bootCsrs (w : State) : Sparse 32 := sparseSetAll w.ref.csrs (bootWrites w)

/-- The six CSRs read back, and no other one changed. -/
theorem sparseGet_bootCsrs {w : State} (hw : SparseWf w.ref.csrs) :
    sparseGet (bootCsrs w) 0x300 = bootValue w 0 0x300 1 ∧ sparseGet (bootCsrs w) 0x305 = bootValue w 1 0x305 2 ∧
    sparseGet (bootCsrs w) 0x341 = bootValue w 2 0x341 3 ∧ sparseGet (bootCsrs w) 0x342 = bootValue w 3 0x342 4 ∧
    sparseGet (bootCsrs w) 0x340 = bootValue w 4 0x340 5 ∧ sparseGet (bootCsrs w) 0x180 = bootValue w 5 0x180 6 ∧
    ∀ n, n ∉ [0x300, 0x305, 0x341, 0x342, 0x340, 0x180] → sparseGet (bootCsrs w) n = sparseGet w.ref.csrs n := by
  have distinct : (bootWrites w).Pairwise (fun x y => x.1 ≠ y.1) := by simp [bootWrites]
  have written {k : Nat} {v : Word} (h : (k, v) ∈ bootWrites w) : sparseGet (bootCsrs w) k = v :=
    sparseGet_sparseSetAll_of_mem hw distinct h
  refine ⟨written ?_, written ?_, written ?_, written ?_, written ?_, written ?_, fun n hn => ?_⟩
  case refine_7 => exact sparseGet_sparseSetAll_of_notMem _ (by simpa [bootWrites, not_or] using hn)
  all_goals simp [bootWrites]

/-- RefExec of the six instructions under REF-RV, the bootstrap program at the reference's pc (42_cosim.md R111). -/
theorem refRvRun_bootstrap {w : State} {m : Memory} (hm : Memory.wf m) (hv : w.cfg.ref = .refRV)
    (he : w.ref.mem = writeBytesWrap m w.ref.pc bootstrapBytes) : (refRvRun 6 w).ref.csrs = bootCsrs w := by
  have hr {r : BitVec 5} (h : r.toNat < 16) : r.toNat < w.cfg.nrGpr.count := h.trans_le (nrGpr_pos _)
  have fetch {k : Nat} (hk : k < 6) {p : Word} (hp : p = w.ref.pc + BitVec.ofNat 32 (4 * k)) :=
    he ▸ decode_bootstrap hm w.ref.pc hk hp
  obtain ⟨w1, h1, c1, d1, e1⟩ := refRvRun_csrw (k := 5) (w := w) rfl rfl rfl
    (fetch (k := 0) (by decide) (by simp)) (hr (by decide)) hv
  obtain ⟨w2, h2, c2, d2, e2⟩ := refRvRun_csrw (k := 4) c1 d1 e1
    (fetch (k := 1) (by decide) (by simp)) (hr (by decide)) hv
  obtain ⟨w3, h3, c3, d3, e3⟩ := refRvRun_csrw (k := 3) c2 d2 e2
    (fetch (k := 2) (by decide) (by simp [BitVec.add_assoc])) (hr (by decide)) hv
  obtain ⟨w4, h4, c4, d4, e4⟩ := refRvRun_csrw (k := 2) c3 d3 e3
    (fetch (k := 3) (by decide) (by simp [BitVec.add_assoc])) (hr (by decide)) hv
  obtain ⟨w5, h5, c5, d5, e5⟩ := refRvRun_csrw (k := 1) c4 d4 e4
    (fetch (k := 4) (by decide) (by simp [BitVec.add_assoc])) (hr (by decide)) hv
  obtain ⟨w6, h6, c6, d6, e6⟩ := refRvRun_csrw (k := 0) c5 d5 e5
    (fetch (k := 5) (by decide) (by simp [BitVec.add_assoc])) (hr (by decide)) hv
  rw [h1, h2, h3, h4, h5, h6, refRvRun, e6]
  rfl

/-- The scratch image carries the six CSRs in x1 to x6 (42_cosim.md R112). -/
theorem readGpr_scratchImage {s : State} (h : 6 < s.gpr.length) :
    readGpr (scratchImage s).gpr 1 = s.csr.mstatus ∧ readGpr (scratchImage s).gpr 2 = s.csr.mtvec ∧
    readGpr (scratchImage s).gpr 3 = s.csr.mepc ∧ readGpr (scratchImage s).gpr 4 = s.csr.mcause ∧
    readGpr (scratchImage s).gpr 5 = s.csr.mscratch ∧ readGpr (scratchImage s).gpr 6 = s.csr.satp := by
  have hlt {i : Nat} (hi : i ≤ 6) : i < s.gpr.length := by omega
  simp [scratchImage, readGpr, writeGpr, hlt]

/-- ATTACH under REF-RV, its calls complete: the reference's CSRs are what the bootstrap program leaves. -/
theorem execAttach_refRV {s : State} (hg : s.gpr.length = s.cfg.nrGpr.count) (hc : s.CallsComplete)
    (hm : Memory.wf s.ref.mem) (hv : s.cfg.ref = .refRV) (hp : InGuestMemory s.cfg s.cfg.resetVector.toNat 24) :
    ∃ t, exec .attach s = .next t ∧ t.ref.csrs = bootCsrs (bootState s) := by
  have hrun : refExecEffect 6 (bootState s) = refRvRun 6 (bootState s) := by
    rw [refExecEffect, show (bootState s).cfg = s.cfg from rfl, hv]
    rfl
  have hboot : (refRvRun 6 (bootState s)).ref.csrs = bootCsrs (bootState s) :=
    refRvRun_bootstrap (m := s.ref.mem) hm hv (by simp only [bootState])
  rw [exec, execAttach, if_pos ((inPmem_iff_inGuestMemory _ _ _).mpr hp), attachCalls_complete hg hc hrun]
  exact ⟨_, rfl, hboot⟩

/-- Settles O43: the bootstrap program reads the CSRs from the scratch image, and the calls after it leave the
reference's CSRs alone. -/
theorem attachTransfersTheCsrsUnderRefRv : Obligations.AttachTransfersTheCsrsUnderRefRv := by
  intro s hi hc hv hp
  obtain ⟨⟨hg, -⟩, -, ⟨⟨hm, -⟩, hcsrs, -⟩, -⟩ := hi
  obtain ⟨t, ht, hboot⟩ := execAttach_refRV hg hc hm hv hp
  have hsix := readGpr_scratchImage (s := s) (by have := nrGpr_pos s.cfg.nrGpr; omega)
  obtain ⟨h1, h2, h3, h4, h5, h6⟩ := hsix
  have hget := sparseGet_bootCsrs (w := bootState s) hcsrs
  simp only [bootValue, show (bootState s).ref.gpr = (scratchImage s).gpr from rfl, h1, h2, h3, h4, h5, h6] at hget
  exact ⟨t, ht, hboot ▸ hget⟩

end Sys2Proof.Machine
end

section
/-! PROOFS. CHECK (O11), and TRANSLATE where its walk succeeds: at a superpage (O13) or after two levels (O14); then what
the walk does not read (O16). -/

namespace Sys2Proof.Machine

/-! ### CHECK -/

/-- CHECK's word carries its opcode (30_encoding.md R62, R65). -/
theorem encode_check_op (kind : AccessKind) (len : AccessLen) : (encode (.check kind len)).toNat % 2 ^ 5 = 0x01 := by
  obtain ⟨hop, -⟩ := toNat_commandFields (encode (.check kind len))
  rw [encode, commandFields_commandWord] at hop
  exact hop.symm

/-- CHECK answers the decision (40_translation.md R78). -/
theorem exec_check_of_translating {s : State} {b : Bool} (kind : AccessKind) (len : AccessLen)
    (h : translating s = b) : exec (.check kind len) s = .next (s.answer (if b then 1 else 0)) := by
  rw [exec, execCheck, h]

/-- Settles O11: the decision is the top bit of satp. -/
theorem checkDecidesByModeAlone : Obligations.CheckDecidesByModeAlone := by
  intro kind len s
  refine ⟨encode_check_op kind len, fun h => ?_, fun h => ?_⟩
  · exact exec_check_of_translating kind len (b := false) (by rw [translating_eq, decide_eq_false (Nat.not_le.mpr h)])
  · exact exec_check_of_translating kind len (b := true) (by rw [translating_eq, decide_eq_true h])

/-! ### Where a walk succeeds -/

section Walk

variable {s : State} {vaddr pte1 : Word} {len : AccessLen}

/-- An aligned level-1 leaf ends the walk (40_translation.md R82, R84). -/
theorem walk_superpage (hx : vaddr.toNat % 4096 + len.bytes ≤ 4096)
    (h1 : pteRead s (level1Addr s.csr.satp vaddr) = some pte1) (hv : pteV pte1 = true)
    (hl : pteR pte1 = true ∨ pteX pte1 = true) (hp : ptePpn0 pte1 = 0) :
    walk s vaddr len = ⟨.ok (superpageAddr pte1 vaddr), [level1Addr s.csr.satp vaddr]⟩ := by
  simp only [walk, crossPage_iff, Nat.not_lt.mpr hx, if_false, pteAddr_root, h1, hv, Bool.true_eq_false, if_pos hl,
    if_pos hp]

/-- A level-2 leaf ends the walk where V, R and W are all set (40_translation.md R87, R88). -/
theorem walkLevel2_page {a1 pte2 : Word} (h : pteRead s (level2Addr pte1 vaddr) = some pte2)
    (hv : pteV pte2 = true) (hr : pteR pte2 = true) (hw : pteW pte2 = true) :
    walkLevel2 s a1 pte1 vaddr = ⟨.ok (pageAddr pte2 vaddr), [a1, level2Addr pte1 vaddr]⟩ := by
  simp only [walkLevel2, pteAddr_table, h, hv, hr, hw, Bool.true_eq_false, or_self, if_false]

end Walk

/-- TRANSLATE answers the address its walk ends with, after the reads the walk made. -/
theorem exec_translate_of_walk_ok {s : State} {len : AccessLen} {pa : Word} {reads : List Word}
    (kind : AccessKind) (h : walk s s.busA len = ⟨.ok pa, reads⟩) :
    exec (.translate kind len) s = .next ((s.logged (reads.map .pteRead)).answer pa) := by
  simp only [exec, execTranslate, h]

/-- Settles O13: the walk ends at the superpage leaf. -/
theorem translateThroughASuperpage : Obligations.TranslateThroughASuperpage := by
  intro s kind len pte1 hx h1 hv hl hp
  have leaf := walk_superpage hx h1 hv hl ((ptePpn0_eq_zero_iff pte1).mpr hp)
  exact ⟨_, toNat_superpageAddr pte1 s.busA, exec_translate_of_walk_ok kind leaf⟩

/-- Settles O14: the walk goes through the pointer and ends at the page leaf. -/
theorem translateThroughTwoLevels : Obligations.TranslateThroughTwoLevels := by
  intro s kind len pte1 pte2 hx h1 hv hr hxx h2 hv2 hr2 hw2
  have leaf := (walk_pointer hx h1 hv hr hxx).trans (walkLevel2_page h2 hv2 hr2 hw2)
  exact ⟨_, toNat_pageAddr pte2 s.busA, exec_translate_of_walk_ok kind leaf⟩

/-! ### What the walk does not read -/

theorem satpPpn_eq_iff (a b : Word) : satpPpn a = satpPpn b ↔ a.toNat % 2 ^ 22 = b.toNat % 2 ^ 22 := by
  rw [← BitVec.toNat_inj]
  simp [satpPpn]

/-- Of satp the walk reads the PPN alone (40_translation.md R80, R89). -/
theorem walk_setSatp {s : State} {satp' : Word} (h : satpPpn satp' = satpPpn s.csr.satp) (vaddr : Word)
    (len : AccessLen) : walk { s with csr := { s.csr with satp := satp' } } vaddr len = walk s vaddr len := by
  unfold walk
  rw [h]
  rfl

/-- Settles O16: TRANSLATE makes one walk for every kind, and a satp with the same low 22 bits has the same PPN. -/
theorem walkIgnoresKindModeAndAsid : Obligations.WalkIgnoresKindModeAndAsid := by
  intro s kind kind' len satp' vaddr
  exact ⟨rfl, fun h => walk_setSatp ((satpPpn_eq_iff _ _).mpr h) vaddr len⟩

end Sys2Proof.Machine
end

section
/-! PROOFS. The trap unit and the register ports (41_trap_csr.md): trap entry (O23), interrupts (O24, O25, O26) and the
trap unit's transitions (O28); then the CSR ports (O30, O31), the general registers' (O33, O34) and pc's (O35). -/

namespace Sys2Proof.Machine

/-! ### The interpreted bits of mstatus -/

/-- Clearing bit `i` and putting `b` there leaves every other bit as it was. -/
theorem getLsbD_replaceBit (m : Word) (b : Bool) {i : Nat} (hi : i < 32) (k : Nat) :
    ((m &&& ~~~BitVec.twoPow 32 i) ||| (if b then BitVec.twoPow 32 i else 0#32)).getLsbD k =
      if k = i then b else m.getLsbD k := by
  by_cases hk : k = i
  · cases b <;> simp [hk, hi]
  · by_cases hlt : k < 32
    · cases b <;> simp [hk, hlt]
    · simp only [if_neg hk, BitVec.getLsbD_of_ge _ k (Nat.not_lt.mp hlt)]

theorem getLsbD_withMie (m : Word) (b : Bool) (k : Nat) :
    (withMie m b).getLsbD k = if k = 3 then b else m.getLsbD k := by
  rw [← getLsbD_replaceBit m b (i := 3) (by decide), withMie]
  rw [show ~~~BitVec.twoPow 32 3 = 0xFFFFFFF7#32 by decide, show BitVec.twoPow 32 3 = 0x00000008#32 by decide]

theorem getLsbD_withMpie (m : Word) (b : Bool) (k : Nat) :
    (withMpie m b).getLsbD k = if k = 7 then b else m.getLsbD k := by
  rw [← getLsbD_replaceBit m b (i := 7) (by decide), withMpie]
  rw [show ~~~BitVec.twoPow 32 7 = 0xFFFFFF7F#32 by decide, show BitVec.twoPow 32 7 = 0x00000080#32 by decide]

/-- Trap entry, bit by bit: MIE is 0, MPIE is the old MIE, every other bit stays (41_trap_csr.md R97). -/
theorem getLsbD_trapStatus (m : Word) (k : Nat) :
    (trapStatus m).getLsbD k = if k = 3 then false else if k = 7 then m.getLsbD 3 else m.getLsbD k := by
  rw [trapStatus, getLsbD_withMie, getLsbD_withMpie, mieOf]

/-! ### Trap entry and interrupts -/

theorem exec_raise (s : State) : exec .raise s = .next ((s.enterTrap s.busA s.busB).answer s.csr.mtvec) := rfl

/-- Settles O23: trap entry writes three CSRs, mstatus as `getLsbD_trapStatus` says. -/
theorem raiseEntersTheTrap : Obligations.RaiseEntersTheTrap := by
  refine ⟨decode_eq_ok_iff.mpr ⟨rfl, rfl⟩, fun s => ⟨_, exec_raise s, rfl, rfl, ?_, ?_, ?_, rfl, rfl⟩⟩
  · exact getLsbD_trapStatus s.csr.mstatus 7
  · exact getLsbD_trapStatus s.csr.mstatus 3
  · intro k h3 h7
    exact (getLsbD_trapStatus s.csr.mstatus k).trans (by rw [if_neg h3, if_neg h7])

theorem exec_query_delivers {s : State} (hmie : s.csr.mstatus.getLsbD 3 = true) (hvec : s.csr.mtvec ≠ 0)
    (hp : s.pending = true) :
    exec .query s = .next { s with pending := false, response := some ⟨.ok, true, s.cfg.irqTimer, []⟩ } :=
  if_pos ⟨hmie, hvec, hp⟩

theorem exec_query_none {s : State} (h : s.csr.mstatus.getLsbD 3 = false ∨ s.csr.mtvec = 0 ∨ s.pending = false) :
    exec .query s = .next (s.answer 0) := by
  refine if_neg ?_
  rintro ⟨hmie, hvec, hp⟩
  rcases h with h | h | h
  · exact Bool.false_ne_true (h.symm.trans hmie)
  · exact hvec h
  · exact Bool.false_ne_true (h.symm.trans hp)

/-- Settles O24: the two cases of QUERY. -/
theorem queryDeliversOrAnswersNone : Obligations.QueryDeliversOrAnswersNone :=
  ⟨decode_eq_ok_iff.mpr ⟨rfl, rfl⟩, fun _ => ⟨exec_query_delivers, exec_query_none⟩⟩

theorem exec_irqEdge (s : State) : exec .irqEdge s = .next ({ s with pending := true }.answer 0) := rfl

/-- Settles O25: IRQ_EDGE's meaning does not look at the latch. -/
theorem irqEdgeSetsTheLatch : Obligations.IrqEdgeSetsTheLatch :=
  ⟨decode_eq_ok_iff.mpr ⟨rfl, rfl⟩, exec_irqEdge⟩

/-! ### Two edges, two queries -/

theorem run_succ_of_step {r s t : State} {k : Nat} {o : Host.Outcome State Fault Refusal} (h : step s = .next t)
    (hrun : Host.Core.run ⟨State, Fault, Refusal, step, r⟩ k t = o) :
    Host.Core.run ⟨State, Fault, Refusal, step, r⟩ (k + 1) s = o := by
  simp only [Host.Core.run, h, hrun]

section Queue

variable {s : State} {a b : Word} {rest : List Event} (hh : s.halted = false)
include hh

theorem step_irqEdge (hq : s.queue = .command 0x11 a b :: rest) :
    step s = .next (({ s with
      queue := rest, trace := [], busA := a, busB := b, pending := true } : State).answer 0) :=
  step_of_command hq hh irqEdgeSetsTheLatch.1

theorem step_query_delivers (hq : s.queue = .command 0x07 a b :: rest) (hmie : s.csr.mstatus.getLsbD 3 = true)
    (hvec : s.csr.mtvec ≠ 0) (hp : s.pending = true) :
    step s = .next { s with
      queue := rest, trace := [], busA := a, busB := b, pending := false
      response := some ⟨.ok, true, s.cfg.irqTimer, []⟩ } :=
  (step_of_command hq hh queryDeliversOrAnswersNone.1).trans (exec_query_delivers hmie hvec hp)

theorem step_query_notPending (hq : s.queue = .command 0x07 a b :: rest) (hp : s.pending = false) :
    step s = .next (({ s with queue := rest, trace := [], busA := a, busB := b } : State).answer 0) :=
  (step_of_command hq hh queryDeliversOrAnswersNone.1).trans (exec_query_none (.inr (.inr hp)))

end Queue

/-- Settles O26: the second edge finds the latch set, the first query clears it, the second query finds it clear. -/
theorem twoEdgesDeliverOnce : Obligations.TwoEdgesDeliverOnce := by
  intro s a b rest hh hmie hvec hq
  have run3 : Host.Core.run ⟨State, Fault, Refusal, step, s⟩ 3 s = .next _ :=
    run_succ_of_step (step_irqEdge hh hq) <|
    run_succ_of_step (step_irqEdge hh rfl) <|
    run_succ_of_step (step_query_delivers hh rfl hmie hvec rfl) rfl
  exact ⟨_, _, run3, rfl, rfl, step_query_notPending hh rfl rfl, rfl, rfl, rfl⟩

/-! ### The CSR ports -/

theorem exec_csrGet_csrNumber (c : CsrName) (s : State) :
    exec (.csrGet (csrNumber c)) s = .next (s.answer (readCsr s.csr c)) :=
  execCsrGet_csrNumber c s

theorem exec_csrSet_csrNumber (c : CsrName) (s : State) :
    exec (.csrSet (csrNumber c)) s = .next (({ s with csr := writeCsr s.csr c s.busA } : State).answer 0) := by
  rw [exec, execCsrSet, csrSelect_csrNumber]

/-- A number that is none of the six selects nothing (41_trap_csr.md R100). -/
theorem csrSelect_eq_none {n : BitVec 12}
    (h : n ∉ [0x300#12, 0x305#12, 0x341#12, 0x342#12, 0x180#12, 0x340#12]) : csrSelect n = none := by
  refine Option.eq_none_iff_forall_ne_some.mpr fun c hc => h ?_
  rw [csrSelect_eq_some_iff.mp hc]
  cases c <;> decide

/-- Settles O30: the six are the numbers of CSRs, and no other number selects one. -/
theorem csrGetAnswersTheSix : Obligations.CsrGetAnswersTheSix := by
  refine ⟨toNat_csrCommand 0x08, fun s => ⟨exec_csrGet_csrNumber .mstatus s, exec_csrGet_csrNumber .mtvec s,
    exec_csrGet_csrNumber .mepc s, exec_csrGet_csrNumber .mcause s, exec_csrGet_csrNumber .satp s,
    exec_csrGet_csrNumber .mscratch s, fun n hn => ?_⟩⟩
  rw [exec, execCsrGet, csrSelect_eq_none hn]

/-- Settles O31, in the same way. -/
theorem csrSetStoresTheSix : Obligations.CsrSetStoresTheSix := by
  refine ⟨toNat_csrCommand 0x09, fun s => ⟨exec_csrSet_csrNumber .mstatus s, exec_csrSet_csrNumber .mtvec s,
    exec_csrSet_csrNumber .mepc s, exec_csrSet_csrNumber .mcause s, exec_csrSet_csrNumber .satp s,
    exec_csrSet_csrNumber .mscratch s, fun n hn => ?_⟩⟩
  rw [exec, execCsrSet, csrSelect_eq_none hn]

/-- Settles O28: MIE is a bit of mstatus, and only RAISE and a CSR_SET of mstatus write that CSR. -/
theorem onlyRaiseAndCsrSetMoveTheTrapUnit : Obligations.OnlyRaiseAndCsrSetMoveTheTrapUnit := by
  intro i s t h
  refine ⟨?_, ?_, fun hraise hset => ?_⟩
  · rintro rfl
    cases h
    exact getLsbD_trapStatus s.csr.mstatus 3
  · rintro rfl
    cases (exec_csrSet_csrNumber .mstatus s).symm.trans h
    rfl
  · by_contra hne
    have moved : readCsr t.csr .mstatus ≠ readCsr s.csr .mstatus := fun he => hne (congrArg mieOf he)
    obtain ⟨hi, -⟩ | hi := (exec_effect h).csr_writer moved
    · exact hraise hi
    · exact hset hi

/-! ### The general registers' ports -/

theorem exec_gprRead_of_lt {s : State} {reg : BitVec 5} (h : reg.toNat < s.cfg.nrGpr.count) :
    exec (.gprRead reg) s = .next (s.answer (readGpr s.gpr reg.toNat)) :=
  if_pos h

/-- Settles O33: the index is in range, or there is no such register (30_encoding.md R68). -/
theorem gprReadAnswersTheRegister : Obligations.GprReadAnswersTheRegister := by
  intro s reg
  refine ⟨toNat_regCommand 0x0D reg, exec_gprRead_of_lt, fun h => ?_⟩
  exact exec_eq_refused_iff.mpr (.inl ⟨rfl, rfl, decide_eq_false (Nat.not_lt.mpr h)⟩)

/-- Storing what a register already holds changes nothing. -/
theorem writeGpr_of_readGpr_eq {l : List Word} {i : Nat} {v : Word} (h : readGpr l i = v) : writeGpr l i v = l := by
  subst h
  by_cases hi : i < l.length
  · simp [writeGpr, readGpr, hi]
  · exact List.set_eq_of_length_le (Nat.not_lt.mp hi)

theorem exec_gprWrite_of_lt {s : State} {reg : BitVec 5} (h : reg.toNat < s.cfg.nrGpr.count)
    (h0 : ¬ (reg = 0 ∧ s.busA ≠ 0)) :
    exec (.gprWrite reg) s = .next (({ s with gpr := writeGpr s.gpr reg.toNat s.busA } : State).answer 0) := by
  rw [exec, execGprWrite, if_pos h, if_neg h0]

/-- Settles O34: the two refusals, then the store, which at x0 puts back the 0 that stands there. -/
theorem gprWriteStoresItsRegisterOnly : Obligations.GprWriteStoresItsRegisterOnly := by
  rintro s reg ⟨hg, -⟩ hx
  refine ⟨toNat_regCommand 0x0E reg, fun h => ?_, fun h0 ha => ?_, fun h0 ha => ?_, fun h0 h => ?_⟩
  · exact exec_eq_refused_iff.mpr (.inl ⟨rfl, rfl, decide_eq_false (Nat.not_lt.mpr h)⟩)
  · exact exec_eq_refused_iff.mpr (.inr (.inl ⟨rfl, congrArg Instr.gprWrite h0, ha⟩))
  · subst h0
    have stored : writeGpr s.gpr (0 : BitVec 5).toNat s.busA = s.gpr := writeGpr_of_readGpr_eq (hx.trans ha.symm)
    rw [exec_gprWrite_of_lt (by exact nrGpr_count_pos s.cfg.nrGpr) fun hne => hne.2 ha, stored]
  · exact ⟨_, exec_gprWrite_of_lt h fun hne => h0 hne.1, readGpr_writeGpr_self (hg ▸ h) _,
      fun j hj => readGpr_writeGpr_ne _ hj _, length_writeGpr _ _ _, rfl, rfl⟩

/-! ### The ports of pc -/

/-- Settles O35: neither port looks at the value. -/
theorem pcPortsReadAndStorePc : Obligations.PcPortsReadAndStorePc :=
  ⟨decode_eq_ok_iff.mpr ⟨rfl, rfl⟩, decode_eq_ok_iff.mpr ⟨rfl, rfl⟩, fun _ => ⟨rfl, rfl⟩⟩

end Sys2Proof.Machine
end

section
/-! PROOFS. The mirror (42_cosim.md): the comparator and CHECK_REGS (O45), ATTACH and DETACH (O39 to O42, O44), STEP
(O46, O47), then foreign calls that are cut short (O38) or of the wrong size (O50). -/

namespace Sys2Proof.Machine

/-! ### The comparator -/

theorem gprMismatch_eq_some_iff {s : State} {p : Word} {i : Nat} {r : Mismatch} :
    gprMismatch s p i = some r ↔ readGpr s.gpr i ≠ readGpr s.mirror.gpr i ∧
      r = ⟨regName s.cfg i, i, readGpr s.gpr i, readGpr s.mirror.gpr i, p⟩ := by
  unfold gprMismatch
  split
  · next he => simp [he]
  · next hne => simp [hne, eq_comm]

theorem mem_pcMismatch_iff {s : State} {p : Word} {r : Mismatch} :
    r ∈ pcMismatch s p ↔ s.pc ≠ s.mirror.pc ∧ r = ⟨"pc", s.cfg.nrGpr.count, s.pc, s.mirror.pc, p⟩ := by
  unfold pcMismatch
  split
  · next he => simp [he]
  · next hne => simp [hne]

/-- Which records there are (42_cosim.md R116, R117). -/
theorem mem_mismatchesOf_iff {s : State} {p : Word} {r : Mismatch} :
    r ∈ mismatchesOf s p ↔
      (∃ i < s.cfg.nrGpr.count, readGpr s.gpr i ≠ readGpr s.mirror.gpr i ∧
        r = ⟨regName s.cfg i, i, readGpr s.gpr i, readGpr s.mirror.gpr i, p⟩) ∨
      (s.pc ≠ s.mirror.pc ∧ r = ⟨"pc", s.cfg.nrGpr.count, s.pc, s.mirror.pc, p⟩) := by
  simp only [mem_mismatchesOf, gprMismatch_eq_some_iff, mem_pcMismatch_iff]

theorem mismatchesOf_eq_nil_iff {s : State} {p : Word} : mismatchesOf s p = [] ↔ s.MirrorAgrees := by
  rw [List.eq_nil_iff_forall_not_mem]
  refine ⟨fun h => ⟨fun i hi => ?_, ?_⟩, fun ⟨hgpr, hpc⟩ r hr => ?_⟩
  · by_contra hne
    exact h _ (mem_mismatchesOf_iff.mpr (.inl ⟨i, hi, hne, rfl⟩))
  · by_contra hne
    exact h _ (mem_mismatchesOf_iff.mpr (.inr ⟨hne, rfl⟩))
  · obtain ⟨i, hi, hne, -⟩ | ⟨hne, -⟩ := mem_mismatchesOf_iff.mp hr
    · exact hne (hgpr i hi)
    · exact hne hpc

/-- The records stand in index order, pc last (42_cosim.md R116): pc's index is the number of registers. -/
theorem mismatchesOf_pairwise_index_lt (s : State) (p : Word) :
    (mismatchesOf s p).Pairwise (fun x y => x.index < y.index) := by
  refine List.pairwise_append.mpr ⟨List.pairwise_filterMap.mpr ?_, ?_, fun x hx y hy => ?_⟩
  · refine List.pairwise_lt_range.imp fun {i j} hij x hx y hy => ?_
    obtain ⟨-, rfl⟩ := gprMismatch_eq_some_iff.mp hx
    obtain ⟨-, rfl⟩ := gprMismatch_eq_some_iff.mp hy
    exact hij
  · unfold pcMismatch
    split
    · exact .nil
    · exact List.pairwise_singleton _ _
  · obtain ⟨i, hi, hx⟩ := List.mem_filterMap.mp hx
    obtain ⟨-, rfl⟩ := gprMismatch_eq_some_iff.mp hx
    obtain ⟨-, rfl⟩ := mem_pcMismatch_iff.mp hy
    exact List.mem_range.mp hi

theorem compared_response_of_mirrorAgrees {s : State} (h : s.MirrorAgrees) (p : Word) :
    (s.compared p).response = some ⟨.ok, false, 1, []⟩ := by
  rw [State.compared, mismatchesOf_eq_nil_iff.mpr h]
  rfl

theorem exec_checkRegs (s : State) : exec .checkRegs s = .next (s.compared s.busB) := rfl

/-- Settles O45: the records are `mismatchesOf`. -/
theorem checkRegsReportsEveryMismatch : Obligations.CheckRegsReportsEveryMismatch := by
  refine ⟨decode_eq_ok_iff.mpr ⟨rfl, rfl⟩, fun s => ⟨_, _, exec_checkRegs s, ?_, fun r => mem_mismatchesOf_iff,
    mismatchesOf_pairwise_index_lt s s.busB⟩⟩
  by_cases h : s.MirrorAgrees
  · have hnil : mismatchesOf s s.busB = [] := mismatchesOf_eq_nil_iff.mpr h
    exact .inl ⟨if_pos hnil, hnil, h⟩
  · have hne : mismatchesOf s s.busB ≠ [] := mismatchesOf_eq_nil_iff.not.mpr h
    exact .inr ⟨if_neg hne, hne, h⟩

/-! ### ATTACH and DETACH -/

theorem exec_attach_of_calls {s t : State} (hp : InGuestMemory s.cfg s.cfg.resetVector.toNat 24)
    (h : attachCalls s = .ok t) :
    exec .attach s = .next (({ t with boot := scratchImage s, cosim := .attached } : State).answer 0) := by
  simp only [exec, execAttach, if_pos ((inPmem_iff_inGuestMemory _ _ _).mpr hp), h]

theorem exec_attach_outside {s : State} (hp : ¬ InGuestMemory s.cfg s.cfg.resetVector.toNat 24) :
    exec .attach s = .next (s.haltWith .physOutOfRange) :=
  if_neg fun h => hp ((inPmem_iff_inGuestMemory _ _ _).mp h)

/-- The scratch image is the live file but for x1 to x6 (42_cosim.md R112). -/
theorem readGpr_scratchImage_live (s : State) {i : Nat} (h : i = 0 ∨ 6 < i) :
    readGpr (scratchImage s).gpr i = readGpr s.gpr i := by
  have hne {j : Nat} (h1 : 1 ≤ j) (h6 : j ≤ 6) : i ≠ j := by omega
  simp [scratchImage, readGpr_writeGpr_ne, hne]

/-- Settles O39: the calls go through, whatever becomes of them, and leave all but the reference's side alone. -/
theorem attachCompletes : Obligations.AttachCompletes := by
  refine ⟨decode_eq_ok_iff.mpr ⟨rfl, rfl⟩, fun s hf hp => ?_⟩
  obtain ⟨t, ht⟩ := attachCalls_isOk hf
  have hsame := attachCalls_same ht
  have hlong : 6 < s.gpr.length := by
    rw [hf.1]
    exact Nat.lt_of_lt_of_le (by decide) (nrGpr_pos _)
  obtain ⟨h1, h2, h3, h4, h5, h6⟩ := readGpr_scratchImage hlong
  refine ⟨_, exec_attach_of_calls hp ht, rfl, rfl, rfl, h1, h2, h3, h4, h5, h6,
    fun i hi => readGpr_scratchImage_live s hi, ?_⟩
  exact congrArg (fun u : State => { u with boot := s.boot, cosim := s.cosim, response := s.response }) hsame

/-- Settles O40: the range is checked first. -/
theorem attachOutsideMemoryHaltsFirst : Obligations.AttachOutsideMemoryHaltsFirst :=
  fun _ => exec_attach_outside

/-- Settles O41: the trace that `attachCalls_complete` gives. -/
theorem attachMakesSixCalls : Obligations.AttachMakesSixCalls :=
  fun _ ⟨hg, _⟩ hc hp => ⟨_, exec_attach_of_calls hp (attachCalls_complete hg hc rfl), rfl⟩

/-- The reference's memory is canonical after RefExec(6) inside ATTACH, whatever that did. -/
theorem memory_wf_after_bootstrap {s : State} (hg : s.gpr.length = s.cfg.nrGpr.count) (hr : s.RefFits) :
    Memory.wf (refExecEffect 6 (bootState s)).ref.mem := by
  have start : EngineFits s.cfg { s.ref with gpr := (scratchImage s).gpr } :=
    ⟨(length_scratchImage s).trans hg, hr⟩
  have boot : EngineFits (bootState s).cfg (bootState s).ref := start.store s.cfg.resetVector bootstrapBytes
  obtain ⟨-, ⟨hwf, -⟩, -⟩ := refExecEffect_fits 6 boot
  exact hwf

/-- What ATTACH's calls leave on the reference's side, all complete, from what RefExec(6) makes of the reference. -/
theorem attachCalls_reference {s u : State} (hg : s.gpr.length = s.cfg.nrGpr.count) (hc : s.CallsComplete)
    (hu : refExecEffect 6 (bootState s) = u) :
    ∃ t, attachCalls s = .ok t ∧ t.mirror = ⟨s.gpr, s.pc⟩ ∧ t.ref.gpr = s.gpr ∧ t.ref.pc = s.pc ∧
      t.ref.mem = writeBytesWrap u.ref.mem s.cfg.resetVector (readBytes s.mem s.cfg.resetVector.toNat 24) := by
  have h := attachCalls_complete hg hc hu
  -- The bytes are hidden, or the last `rfl` would evaluate the store of all 24.
  generalize readBytes s.mem s.cfg.resetVector.toNat 24 = bytes at h ⊢
  exact ⟨_, h, rfl, rfl, rfl, rfl⟩

/-- Settles O42: calls (4) and (5) of R113 overwrite what RefExec made of the registers, pc and the 24 bytes, and (6)
copies the live image that (4) brought. -/
theorem attachThenCheckRegsAgrees : Obligations.AttachThenCheckRegsAgrees := by
  intro s ⟨⟨hg, _⟩, _, hr, _⟩ hc hp
  obtain ⟨t, ht, hmirror, hgpr, hpc, hmem⟩ := attachCalls_reference hg hc rfl
  have hsame := attachCalls_same ht
  have bytesBack : readBytesWrap t.ref.mem s.cfg.resetVector 24 = readBytes s.mem s.cfg.resetVector.toNat 24 := by
    have h := readBytesWrap_writeBytesWrap (memory_wf_after_bootstrap hg hr) s.cfg.resetVector
      (readBytes s.mem s.cfg.resetVector.toNat 24) (by rw [length_readBytes]; decide)
    rwa [length_readBytes, ← hmem] at h
  have agrees : t.MirrorAgrees := by
    rw [State.MirrorAgrees, hmirror]
    exact ⟨fun i _ => congrArg (readGpr · i) (congrArg State.gpr hsame :), (congrArg State.pc hsame :)⟩
  exact ⟨_, _, exec_attach_of_calls hp ht, hmirror, hgpr, hpc, bytesBack, exec_checkRegs _,
    compared_response_of_mirrorAgrees (by exact agrees) _⟩

/-- Settles O44. -/
theorem detachOnlyChangesTheMode : Obligations.DetachOnlyChangesTheMode :=
  ⟨decode_eq_ok_iff.mpr ⟨rfl, rfl⟩, fun _ => rfl⟩

/-! ### STEP -/

/-- CHECK_REGS and STEP leave all but the reference's side and the response alone (42_cosim.md R116, R118). -/
theorem Effect.comparison_frame {s t : State} {i : Instr} (h : Effect s i t) (hf : s.FilesFit)
    (hi : i = .checkRegs ∨ i = .step) :
    { t with
      mirror := s.mirror, ref := s.ref, callFates := s.callFates, draws := s.draws
      response := s.response, trace := s.trace } = s := by
  cases h with
  | answers | compares => rfl
  | steps u hs => exact congrArg (fun w : State => { w with response := s.response }) hs
  | halts _ _ _ hne => exact absurd hi (by simp [hne])
  | haltsInCall _ _ hs => exact absurd hf hs
  | _ => exact absurd hi (by simp)

theorem exec_step_detached {s : State} (h0 : s.busA ≠ 0) (hd : s.cosim = .detached) :
    exec .step s = .next (s.answer 1) := by
  simp only [exec, execStep, if_neg h0, hd]

theorem exec_step_attached {s t : State} (h0 : s.busA ≠ 0) (ha : s.cosim = .attached)
    (h : refRegcpyFrom (refExec s.busA s) = .ok t) : exec .step s = .next (t.compared s.busB) := by
  simp only [exec, execStep, if_neg h0, ha, h]

/-- Settles O46: the answer of an attached STEP is the comparator's, which does not read the response it writes. -/
theorem stepStepsTheReferenceAndCompares : Obligations.StepStepsTheReferenceAndCompares := by
  refine ⟨decode_eq_ok_iff.mpr ⟨rfl, rfl⟩, fun s hf => ⟨fun h0 => ?_, exec_step_detached, fun h0 ha => ?_⟩⟩
  · exact exec_eq_refused_iff.mpr (.inr (.inr ⟨rfl, rfl, h0⟩))
  obtain ⟨u, hu⟩ := stepCalls_isOk hf
  have ht := exec_step_attached h0 ha hu
  obtain ⟨-, -, -, hbus⟩ := (exec_effect ht).surroundings
  refine ⟨_, ht, fun hc => ?_, ?_, (exec_effect ht).comparison_frame hf (.inr rfl)⟩
  · obtain ⟨-, -, -, hg⟩ := hf
    have hcomplete := exec_step_complete rfl h0 ha hc hg (refExec_complete hc s.busA).symm
    injection ht.symm.trans hcomplete with heq
    rw [heq]
    exact ⟨rfl, rfl, rfl⟩
  · rw [exec_checkRegs, hbus]
    rfl

/-- Settles O47: of what these two may change, nothing is the halt record or live state. -/
theorem mismatchesAreNotFaults : Obligations.MismatchesAreNotFaults := by
  intro i s t hf hi hx
  have h := (exec_effect hx).comparison_frame hf hi
  exact ⟨(congrArg State.halted h :), (congrArg State.haltReason h :), (congrArg State.gpr h :),
    (congrArg State.pc h :), (congrArg State.csr h :), (congrArg State.pending h :), (congrArg State.mem h :)⟩

/-! ### Calls cut short -/

/-- Where a foreign call takes effect or is cut short: the call is recorded and its fate used up. -/
abbrev State.called (s : State) (e : BusEvent) : State := { s.logged [e] with callFates := s.callFates.tail }

section CutShort

variable {s : State} (h : s.callFates.head? = some .cutShort)
include h

theorem refMemcpyTo_cutShort (a : Word) (bs : List Byte) :
    refMemcpyTo a bs bs.length s = .ok (s.called (.refMemcpy a bs.length bs .toReference)).drawEngine := by
  rw [refMemcpyTo, if_pos rfl, foreignCall_cutShort h]

theorem refMemcpyFrom_cutShort (a : Word) (n : Nat) :
    refMemcpyFrom a n n s =
      .ok ((s.called (.refMemcpy a n (readBytesWrap s.ref.mem a n) .fromReference)).drawEngine.drawBytes n) := by
  rw [refMemcpyFrom, if_pos rfl, foreignCall_cutShort h]

theorem refRegcpyTo_cutShort {g : RegImage} (hg : imageSize g = 4 * s.cfg.nrGpr.count + 4) :
    refRegcpyTo g s = .ok (s.called (.refRegcpy g .toReference)).drawEngine := by
  rw [refRegcpyTo, if_pos hg, foreignCall_cutShort h]

theorem refRegcpyFrom_cutShort (hg : s.ref.gpr.length = s.cfg.nrGpr.count) :
    refRegcpyFrom s =
      .ok (s.called (.refRegcpy ⟨s.ref.gpr, s.ref.pc⟩ .fromReference)).drawEngine.drawMirror := by
  rw [refRegcpyFrom, if_pos (by rw [imageSize_fit, hg]), foreignCall_cutShort h]

theorem refExec_cutShort (n : Word) : refExec n s = (s.called (.refExec n)).drawEngine := by
  rw [refExec, foreignCall_cutShort h]

end CutShort

/-- A black box's RefExec draws, complete or not (42_cosim.md R109). -/
theorem refExec_blackBox {s : State} (h : s.cfg.ref = .blackBox) (n : Word) :
    refExec n s = (s.called (.refExec n)).drawEngine := by
  have hfull : refExecEffect n (s.called (.refExec n)) = (s.called (.refExec n)).drawEngine := by
    simp only [refExecEffect, State.logged_cfg, h]
  obtain ⟨-, hcall⟩ | ⟨-, hcall⟩ := foreignCall_cases (.refExec n) (refExecEffect n) State.drawEngine s
  · exact hcall.trans hfull
  · exact hcall

/-- Settles O38: one equation for each primitive. -/
theorem cutShortCallsDrawTheReference : Obligations.CutShortCallsDrawTheReference := by
  intro s drawn
  refine ⟨fun h => ⟨fun a bs => ⟨_, refMemcpyTo_cutShort h a bs, rfl, rfl⟩,
    fun a n => ⟨_, refMemcpyFrom_cutShort h a n, rfl, rfl⟩, fun g hg => ⟨_, refRegcpyTo_cutShort h hg, rfl, rfl⟩,
    fun hg => ⟨_, refRegcpyFrom_cutShort h hg, rfl, rfl, rfl⟩, fun n => ?_⟩, fun h n => ?_⟩
  · rw [refExec_cutShort h]
    exact ⟨rfl, rfl⟩
  · rw [refExec_blackBox h]
    exact ⟨rfl, rfl⟩

/-! ### Calls of the wrong size -/

/-- Where the register files fit, no instruction halts for the size of a foreign call (42_cosim.md R108). -/
theorem Effect.haltReason_of_foreignCallSize {s t : State} {i : Instr} (h : Effect s i t) (hf : s.FilesFit)
    (ht : t.haltReason = some .foreignCallSize) : s.haltReason = some .foreignCallSize := by
  cases h with
  | halts f _ _ _ hne => exact absurd (Option.some.inj ht) hne
  | haltsInCall _ _ hs => exact absurd hf hs
  | attaches u hs | steps u hs => exact hs.haltRecord.2 ▸ ht
  | guest c r => exact (csrwEffect_same c r s).haltRecord.2 ▸ ht
  | _ => exact ht

/-- Settles O50, over the four things a step can do. -/
theorem foreignCallSizeIsUnreachable : Obligations.ForeignCallSizeIsUnreachable := by
  intro s t ⟨hf, _⟩ hst ht
  obtain ⟨-, rfl⟩ | ⟨_, _, _, _, _, -, -, -, hx⟩ | ⟨d, _, -, rfl⟩ | ⟨_, _, -, hl⟩ := step_cases hst
  · exact ht
  · exact (exec_effect hx).haltReason_of_foreignCallSize hf ht
  · cases ht
  · obtain ⟨-, -, rfl⟩ := loadSnapshot_next hl
    exact ht

end Sys2Proof.Machine
end

section
/-! PROOFS. The host's fault outcome is never answered (60_exceptions.md R122; O10): a Fatal is a next state, so besides
next states there are only the refusals of R123. -/

namespace Sys2Proof.Machine

/-- The three instructions that may be refused (`exec_isNext`) answer a next state otherwise; every other one always
does. -/
theorem exec_ne_fault (i : Instr) (s : State) (r : Fault) : exec i s ≠ .fault r := by
  have isNext := fun hr hw hs => exec_isNext (i := i) hr hw hs s
  cases i with
  | gprRead g =>
    simp only [exec, execGprRead]
    split <;> simp
  | gprWrite g =>
    simp only [exec, execGprWrite]
    split
    · split <;> simp
    · simp
  | step =>
    simp only [exec, execStep]
    split
    · simp
    · cases s.cosim with
      | detached => simp
      | attached => cases refRegcpyFrom (refExec s.busA s) <;> simp
  | _ =>
    obtain ⟨t, ht⟩ := isNext (by simp) (by simp) (by simp)
    simp [ht]

theorem takeCommand_ne_fault (w a b : Word) (s : State) (r : Fault) : takeCommand w a b s ≠ .fault r := by
  unfold takeCommand
  split
  · simp
  · cases decode .command w with
    | ok i => exact exec_ne_fault i _ r
    | error => simp

theorem loadSnapshot_ne_fault (image : List Byte) (s : State) (r : Fault) : loadSnapshot image s ≠ .fault r := by
  unfold loadSnapshot
  split
  · split <;> simp
  · simp

/-- Settles O10, over the events a step can take. -/
theorem noStepAnswersAFault : Obligations.NoStepAnswersAFault := by
  intro s r
  unfold step
  cases s.queue with
  | nil => simp
  | cons e rest =>
    cases e with
    | command w a b => exact takeCommand_ne_fault w a b _ r
    | reset d => simp [takeEvent]
    | snapshotLoad image => exact loadSnapshot_ne_fault image _ r

end Sys2Proof.Machine
end

section
/-! PROOFS. The entry state (70_reset_and_hazards.md R138; O55): satp is 0, so accesses are bare, and mstatus is 0, so
no interrupt is delivered. -/

namespace Sys2Proof.Machine

/-- The word at RESET_VECTOR lies in guest memory (00_scope.md R10, 20_memory.md R46). -/
theorem resetVector_inGuestMemory {c : Config} (h : c.Legal) : InGuestMemory c c.resetVector.toNat 4 := by
  obtain ⟨-, hbase, hend, htop⟩ := h
  exact ⟨hbase, hend, Nat.le_trans hend htop⟩

/-- After reset every virtual address is the physical one, and finding it takes no read. -/
theorem physAddr_powerOn (c : Config) (d : ResetDraws) (m : Memory) (r : RefEngine) (vaddr : Word) (len : AccessLen) :
    physAddr (State.powerOn c d m r) vaddr len = ⟨.ok vaddr, []⟩ :=
  (physicalAddressOfAnAccess _ vaddr len).1 (show (0#32).toNat < 2 ^ 31 by decide)

/-- Settles O55: the fetch is a bare load of guest memory, and MIE is clear whether or not an edge is latched. -/
theorem entryStateFetchesDirectly : Obligations.EntryStateFetchesDirectly := by
  intro c d m r hc s t
  have direct : physAddr t t.busA .b4 = ⟨.ok c.resetVector, []⟩ := physAddr_powerOn c d m r c.resetVector .b4
  obtain ⟨v, hv, hfetch, -⟩ :=
    loadsAnswerTheBytes t .b4 c.resetVector (by rw [direct]) (resetVector_inGuestMemory hc)
  rw [direct] at hfetch
  exact ⟨⟨v, hv, hfetch⟩, fun _ => exec_query_none (.inl BitVec.getLsbD_zero)⟩

end Sys2Proof.Machine
end
